-- ==== Sys2Proof/Word.lean ====
section
/-! DEFINITION. Word: the bit-vector types of the machine (00_scope.md rules R4, R5) and zero extension (rule R6). -/

namespace Sys2Proof

/-- 8-bit values: V registers, DT, ST, memory bytes, NN (R4, R48). -/
abbrev Byte := BitVec 8

/-- 16-bit values: instruction words, I, PC, stack entries, FAULT and UNK fields (R4, R45). -/
abbrev Word := BitVec 16

/-- 4-bit immediates: the height N of DRW (R46, R48). -/
abbrev Nibble := BitVec 4

/-- 12-bit addresses: the field NNN (R46, R48). -/
abbrev Addr12 := BitVec 12

/-- A register index, the 4-bit fields X and Y, naming V0..VF (R10, R48). -/
abbrev Reg := Fin 16

/-- The flag register VF (R11). -/
def regVF : Reg := 15

/-- `zext_16` of a 12-bit address (R6, R48). -/
def zext12 (a : Addr12) : Word := a.setWidth 16

/-- `zext_16` of a byte (R6, R78, R96). -/
def zext8 (b : Byte) : Word := b.setWidth 16

/-- A truth value as the byte 1 or 0: what a flag writes into VF (R11). -/
def flagByte (b : Bool) : Byte := if b then 1 else 0

end Sys2Proof
end

