-- ==== Sys2Proof/Machine/Flags.lean ====
section
/-! DEFINITION. Flags: what each flag-writing instruction puts into VF (10_state.md rule R11, 42_alu.md rules R87 to R91,
44_display.md rule R106). -/

namespace Sys2Proof.Machine

/-- Carry: 1 iff the mathematical sum exceeds 255 (R87). -/
def carryFlag (a b : Byte) : Byte := flagByte (decide (255 < a.toNat + b.toNat))

/-- No borrow: 1 iff a ≥ b (R88, R90). -/
def noBorrowFlag (a b : Byte) : Byte := flagByte (decide (b.toNat ≤ a.toNat))

/-- The bit SHR shifts out: bit 0 (R89). -/
def shiftRightFlag (a : Byte) : Byte := flagByte (a.getLsbD 0)

/-- The bit SHL shifts out: bit 7 (R91). -/
def shiftLeftFlag (a : Byte) : Byte := flagByte (a.getLsbD 7)

/-- Collision: 1 iff some pixel went from on to off (R106). -/
def collisionFlag (hit : Bool) : Byte := flagByte hit

end Sys2Proof.Machine
end

