-- ==== Sys2Proof/Syntax.lean ====
section
/-! DEFINITION. Syntax: the 34 instructions of 30_encoding.md rule R50, one constructor per row of the opcode table, in the
table's order. An operand has exactly the width of its field (R46, R48), so no operand is out of range. Bits that R53 calls
ignored are not operands: two words that differ only in them are the same instruction. -/

namespace Sys2Proof

/-- The instruction set (R50). -/
inductive Instr where
  /-- CLS (R105) -/
  | cls
  /-- RET (R71) -/
  | ret
  /-- JP addr (R72) -/
  | jpAddr (nnn : Addr12)
  /-- CALL addr (R73) -/
  | callAddr (nnn : Addr12)
  /-- SE Vx,NN (R74) -/
  | seVxNN (x : Reg) (nn : Byte)
  /-- SNE Vx,NN (R75) -/
  | sneVxNN (x : Reg) (nn : Byte)
  /-- SE Vx,Vy (R76) -/
  | seVxVy (x y : Reg)
  /-- LD Vx,NN (R81) -/
  | ldVxNN (x : Reg) (nn : Byte)
  /-- ADD Vx,NN (R82) -/
  | addVxNN (x : Reg) (nn : Byte)
  /-- LD Vx,Vy (R83) -/
  | ldVxVy (x y : Reg)
  /-- OR Vx,Vy (R84) -/
  | orVxVy (x y : Reg)
  /-- AND Vx,Vy (R85) -/
  | andVxVy (x y : Reg)
  /-- XOR Vx,Vy (R86) -/
  | xorVxVy (x y : Reg)
  /-- ADD Vx,Vy (R87) -/
  | addVxVy (x y : Reg)
  /-- SUB Vx,Vy (R88) -/
  | subVxVy (x y : Reg)
  /-- SHR Vx (R89) -/
  | shrVx (x : Reg)
  /-- SUBN Vx,Vy (R90) -/
  | subnVxVy (x y : Reg)
  /-- SHL Vx (R91) -/
  | shlVx (x : Reg)
  /-- SNE Vx,Vy (R77) -/
  | sneVxVy (x y : Reg)
  /-- LD I,addr (R95) -/
  | ldIAddr (nnn : Addr12)
  /-- JP V0,addr (R78) -/
  | jpV0Addr (nnn : Addr12)
  /-- RND Vx,NN (R92) -/
  | rndVxNN (x : Reg) (nn : Byte)
  /-- DRW Vx,Vy,N (R106) -/
  | drwVxVyN (x y : Reg) (n : Nibble)
  /-- SKP Vx (R110) -/
  | skpVx (x : Reg)
  /-- SKNP Vx (R111) -/
  | sknpVx (x : Reg)
  /-- LD Vx,DT (R112) -/
  | ldVxDT (x : Reg)
  /-- LD Vx,K (R113) -/
  | ldVxK (x : Reg)
  /-- LD DT,Vx (R114) -/
  | ldDTVx (x : Reg)
  /-- LD ST,Vx (R115) -/
  | ldSTVx (x : Reg)
  /-- ADD I,Vx (R96) -/
  | addIVx (x : Reg)
  /-- LD F,Vx (R97) -/
  | ldFVx (x : Reg)
  /-- LD B,Vx (R98) -/
  | ldBVx (x : Reg)
  /-- LD [I],Vx (R100) -/
  | ldMemVx (x : Reg)
  /-- LD Vx,[I] (R101) -/
  | ldVxMem (x : Reg)
deriving DecidableEq, Repr

end Sys2Proof
end

