-- ==== Sys2Proof/Decode.lean ====
section
/-! DEFINITION. Decode: the Opcode Decoder (00_scope.md rule R2, 30_encoding.md rules R45 to R53), total on any bytes and
rejecting by name, then the encoder, then the opcode table of R50 as data. -/

namespace Sys2Proof

/-- FAM, bits 15:12 (R46). -/
def fieldFam (w : Word) : BitVec 4 := w.extractLsb' 12 4

/-- X, bits 11:8 (R46). -/
def fieldX (w : Word) : Reg := (w.extractLsb' 8 4).toFin

/-- Y, bits 7:4 (R46). -/
def fieldY (w : Word) : Reg := (w.extractLsb' 4 4).toFin

/-- N, bits 3:0 (R46). -/
def fieldN (w : Word) : Nibble := w.extractLsb' 0 4

/-- NN, bits 7:0 (R46). -/
def fieldNN (w : Word) : Byte := w.extractLsb' 0 8

/-- NNN, bits 11:0 (R46). -/
def fieldNNN (w : Word) : Addr12 := w.extractLsb' 0 12

/-- Why bytes are no instruction: the unknown opcodes of R52 by family, or too few bytes for a word (R45). -/
inductive DecodeError where
  /-- a word 0NNN other than 00E0 and 00EE -/
  | unknownFamily0 (w : Word)
  /-- a word 8XYN with N none of 0..7, E -/
  | unknownFamily8 (w : Word)
  /-- a word EXNN with NN neither 9E nor A1 -/
  | unknownFamilyE (w : Word)
  /-- a word FXNN with NN none of the nine sub-opcodes -/
  | unknownFamilyF (w : Word)
  /-- fewer than two bytes -/
  | truncated
deriving DecidableEq, Repr

/-- Family 0x0 dispatches on the whole word (R49). -/
def decodeFamily0 (w : Word) : Except DecodeError Instr :=
  if w = 0x00E0#16 then .ok .cls
  else if w = 0x00EE#16 then .ok .ret
  else .error (.unknownFamily0 w)

/-- Family 0x8 dispatches on N (R49). -/
def decodeFamily8 (w : Word) : Except DecodeError Instr :=
  if fieldN w = 0x0#4 then .ok (.ldVxVy (fieldX w) (fieldY w))
  else if fieldN w = 0x1#4 then .ok (.orVxVy (fieldX w) (fieldY w))
  else if fieldN w = 0x2#4 then .ok (.andVxVy (fieldX w) (fieldY w))
  else if fieldN w = 0x3#4 then .ok (.xorVxVy (fieldX w) (fieldY w))
  else if fieldN w = 0x4#4 then .ok (.addVxVy (fieldX w) (fieldY w))
  else if fieldN w = 0x5#4 then .ok (.subVxVy (fieldX w) (fieldY w))
  else if fieldN w = 0x6#4 then .ok (.shrVx (fieldX w))
  else if fieldN w = 0x7#4 then .ok (.subnVxVy (fieldX w) (fieldY w))
  else if fieldN w = 0xE#4 then .ok (.shlVx (fieldX w))
  else .error (.unknownFamily8 w)

/-- Family 0xE dispatches on NN (R49). -/
def decodeFamilyE (w : Word) : Except DecodeError Instr :=
  if fieldNN w = 0x9E#8 then .ok (.skpVx (fieldX w))
  else if fieldNN w = 0xA1#8 then .ok (.sknpVx (fieldX w))
  else .error (.unknownFamilyE w)

/-- Family 0xF dispatches on NN (R49). -/
def decodeFamilyF (w : Word) : Except DecodeError Instr :=
  if fieldNN w = 0x07#8 then .ok (.ldVxDT (fieldX w))
  else if fieldNN w = 0x0A#8 then .ok (.ldVxK (fieldX w))
  else if fieldNN w = 0x15#8 then .ok (.ldDTVx (fieldX w))
  else if fieldNN w = 0x18#8 then .ok (.ldSTVx (fieldX w))
  else if fieldNN w = 0x1E#8 then .ok (.addIVx (fieldX w))
  else if fieldNN w = 0x29#8 then .ok (.ldFVx (fieldX w))
  else if fieldNN w = 0x33#8 then .ok (.ldBVx (fieldX w))
  else if fieldNN w = 0x55#8 then .ok (.ldMemVx (fieldX w))
  else if fieldNN w = 0x65#8 then .ok (.ldVxMem (fieldX w))
  else .error (.unknownFamilyF w)

/-- The decoder: first on FAM, then, in four families, on the sub-opcode (R49, R62). -/
def decodeWord (w : Word) : Except DecodeError Instr :=
  if fieldFam w = 0x0#4 then decodeFamily0 w
  else if fieldFam w = 0x1#4 then .ok (.jpAddr (fieldNNN w))
  else if fieldFam w = 0x2#4 then .ok (.callAddr (fieldNNN w))
  else if fieldFam w = 0x3#4 then .ok (.seVxNN (fieldX w) (fieldNN w))
  else if fieldFam w = 0x4#4 then .ok (.sneVxNN (fieldX w) (fieldNN w))
  else if fieldFam w = 0x5#4 then .ok (.seVxVy (fieldX w) (fieldY w))
  else if fieldFam w = 0x6#4 then .ok (.ldVxNN (fieldX w) (fieldNN w))
  else if fieldFam w = 0x7#4 then .ok (.addVxNN (fieldX w) (fieldNN w))
  else if fieldFam w = 0x8#4 then decodeFamily8 w
  else if fieldFam w = 0x9#4 then .ok (.sneVxVy (fieldX w) (fieldY w))
  else if fieldFam w = 0xA#4 then .ok (.ldIAddr (fieldNNN w))
  else if fieldFam w = 0xB#4 then .ok (.jpV0Addr (fieldNNN w))
  else if fieldFam w = 0xC#4 then .ok (.rndVxNN (fieldX w) (fieldNN w))
  else if fieldFam w = 0xD#4 then .ok (.drwVxVyN (fieldX w) (fieldY w) (fieldN w))
  else if fieldFam w = 0xE#4 then decodeFamilyE w
  else decodeFamilyF w

/-- The word two bytes form, the byte at the lower address in bits 15:8 (R32, R45). -/
def wordOfBytes (hi lo : Byte) : Word := hi ++ lo

/-- The byte of a word that lies at the lower address: bits 15:8 (R45). -/
def highByte (w : Word) : Byte := w.extractLsb' 8 8

/-- The byte of a word that lies at the higher address: bits 7:0 (R45). -/
def lowByte (w : Word) : Byte := w.extractLsb' 0 8

/-- Decoding a stream of bytes: one instruction and the bytes after it (R45). -/
def decodeBytes : List Byte → Except DecodeError (Instr × List Byte)
  | hi :: lo :: rest =>
    match decodeWord (wordOfBytes hi lo) with
    | .ok i => .ok (i, rest)
    | .error e => .error e
  | _ => .error .truncated

/-- The bytes of a word as memory holds them, the first at the lowest address (R32). -/
def bytesOfWord (w : Word) : List Byte := [highByte w, lowByte w]

/-- The word of an opcode-table row's numbering: `nbits` bits of `w`, every bit above them 0. -/
def tableWord (nbits w : Nat) : Word := BitVec.ofNat 16 (w % 2 ^ nbits)

/-- What the decoder reads from an instruction numbered as spec/opcode_table.json numbers its bits. -/
def decodeTableWord (nbits w : Nat) : Option Instr :=
  match decodeBytes (bytesOfWord (tableWord nbits w)) with
  | .ok (i, _) => some i
  | .error _ => none

/-- Format A: FAM and NNN (R47). -/
def formatA (fam : BitVec 4) (nnn : Addr12) : Word := fam ++ nnn

/-- Format XB: FAM, X, NN (R47). Also format XS, whose NN is the sub-opcode. -/
def formatXB (fam : BitVec 4) (x : Reg) (nn : Byte) : Word := fam ++ BitVec.ofFin (w := 4) x ++ nn

/-- Format XY and XYN: FAM, X, Y and the low nibble (R47). -/
def formatXYN (fam : BitVec 4) (x y : Reg) (n : Nibble) : Word :=
  fam ++ BitVec.ofFin (w := 4) x ++ BitVec.ofFin (w := 4) y ++ n

/-- The encoder (R50). Ignored bits are 0, as an assembler emits them (R53, R54). -/
def encode : Instr → Word
  | .cls => 0x00E0
  | .ret => 0x00EE
  | .jpAddr nnn => formatA 0x1 nnn
  | .callAddr nnn => formatA 0x2 nnn
  | .seVxNN x nn => formatXB 0x3 x nn
  | .sneVxNN x nn => formatXB 0x4 x nn
  | .seVxVy x y => formatXYN 0x5 x y 0x0
  | .ldVxNN x nn => formatXB 0x6 x nn
  | .addVxNN x nn => formatXB 0x7 x nn
  | .ldVxVy x y => formatXYN 0x8 x y 0x0
  | .orVxVy x y => formatXYN 0x8 x y 0x1
  | .andVxVy x y => formatXYN 0x8 x y 0x2
  | .xorVxVy x y => formatXYN 0x8 x y 0x3
  | .addVxVy x y => formatXYN 0x8 x y 0x4
  | .subVxVy x y => formatXYN 0x8 x y 0x5
  | .shrVx x => formatXYN 0x8 x 0 0x6
  | .subnVxVy x y => formatXYN 0x8 x y 0x7
  | .shlVx x => formatXYN 0x8 x 0 0xE
  | .sneVxVy x y => formatXYN 0x9 x y 0x0
  | .ldIAddr nnn => formatA 0xA nnn
  | .jpV0Addr nnn => formatA 0xB nnn
  | .rndVxNN x nn => formatXB 0xC x nn
  | .drwVxVyN x y n => formatXYN 0xD x y n
  | .skpVx x => formatXB 0xE x 0x9E
  | .sknpVx x => formatXB 0xE x 0xA1
  | .ldVxDT x => formatXB 0xF x 0x07
  | .ldVxK x => formatXB 0xF x 0x0A
  | .ldDTVx x => formatXB 0xF x 0x15
  | .ldSTVx x => formatXB 0xF x 0x18
  | .addIVx x => formatXB 0xF x 0x1E
  | .ldFVx x => formatXB 0xF x 0x29
  | .ldBVx x => formatXB 0xF x 0x33
  | .ldMemVx x => formatXB 0xF x 0x55
  | .ldVxMem x => formatXB 0xF x 0x65

/-- The bytes of an instruction, the first at the lowest address (R32, R54). -/
def encodeBytes (i : Instr) : List Byte := bytesOfWord (encode i)

/-- The word with the bits R53 calls ignored set to 0: bits 3:0 of families 0x5 and 0x9, bits 7:4 of 8XY6 and 8XYE. -/
def clearIgnoredBits (w : Word) : Word :=
  if fieldFam w = 0x5#4 ∨ fieldFam w = 0x9#4 then w &&& 0xFFF0#16
  else if fieldFam w = 0x8#4 ∧ (fieldN w = 0x6#4 ∨ fieldN w = 0xE#4) then w &&& 0xFF0F#16
  else w

/-- One row of the opcode table: a word `w` selects it iff `w &&& mask = value` (R50). -/
structure OpcodeRow where
  mnemonic : String
  mask : Word
  value : Word
deriving DecidableEq, Repr

/-- Rows 1 to 17 of R50. -/
def opcodeTableFirst : List OpcodeRow := [
  ⟨"CLS", 0xFFFF, 0x00E0⟩, ⟨"RET", 0xFFFF, 0x00EE⟩, ⟨"JP addr", 0xF000, 0x1000⟩, ⟨"CALL addr", 0xF000, 0x2000⟩,
  ⟨"SE Vx,NN", 0xF000, 0x3000⟩, ⟨"SNE Vx,NN", 0xF000, 0x4000⟩, ⟨"SE Vx,Vy", 0xF000, 0x5000⟩,
  ⟨"LD Vx,NN", 0xF000, 0x6000⟩, ⟨"ADD Vx,NN", 0xF000, 0x7000⟩, ⟨"LD Vx,Vy", 0xF00F, 0x8000⟩,
  ⟨"OR Vx,Vy", 0xF00F, 0x8001⟩, ⟨"AND Vx,Vy", 0xF00F, 0x8002⟩, ⟨"XOR Vx,Vy", 0xF00F, 0x8003⟩,
  ⟨"ADD Vx,Vy", 0xF00F, 0x8004⟩, ⟨"SUB Vx,Vy", 0xF00F, 0x8005⟩, ⟨"SHR Vx", 0xF00F, 0x8006⟩,
  ⟨"SUBN Vx,Vy", 0xF00F, 0x8007⟩]

/-- Rows 18 to 34 of R50. -/
def opcodeTableSecond : List OpcodeRow := [
  ⟨"SHL Vx", 0xF00F, 0x800E⟩, ⟨"SNE Vx,Vy", 0xF000, 0x9000⟩, ⟨"LD I,addr", 0xF000, 0xA000⟩,
  ⟨"JP V0,addr", 0xF000, 0xB000⟩, ⟨"RND Vx,NN", 0xF000, 0xC000⟩, ⟨"DRW Vx,Vy,N", 0xF000, 0xD000⟩,
  ⟨"SKP Vx", 0xF0FF, 0xE09E⟩, ⟨"SKNP Vx", 0xF0FF, 0xE0A1⟩, ⟨"LD Vx,DT", 0xF0FF, 0xF007⟩,
  ⟨"LD Vx,K", 0xF0FF, 0xF00A⟩, ⟨"LD DT,Vx", 0xF0FF, 0xF015⟩, ⟨"LD ST,Vx", 0xF0FF, 0xF018⟩,
  ⟨"ADD I,Vx", 0xF0FF, 0xF01E⟩, ⟨"LD F,Vx", 0xF0FF, 0xF029⟩, ⟨"LD B,Vx", 0xF0FF, 0xF033⟩,
  ⟨"LD [I],Vx", 0xF0FF, 0xF055⟩, ⟨"LD Vx,[I]", 0xF0FF, 0xF065⟩]

/-- The complete opcode table of R50. -/
def opcodeTable : List OpcodeRow := opcodeTableFirst ++ opcodeTableSecond

/-- The row number of an instruction in R50, from 0. -/
def rowIndex : Instr → Nat
  | .cls => 0
  | .ret => 1
  | .jpAddr _ => 2
  | .callAddr _ => 3
  | .seVxNN _ _ => 4
  | .sneVxNN _ _ => 5
  | .seVxVy _ _ => 6
  | .ldVxNN _ _ => 7
  | .addVxNN _ _ => 8
  | .ldVxVy _ _ => 9
  | .orVxVy _ _ => 10
  | .andVxVy _ _ => 11
  | .xorVxVy _ _ => 12
  | .addVxVy _ _ => 13
  | .subVxVy _ _ => 14
  | .shrVx _ => 15
  | .subnVxVy _ _ => 16
  | .shlVx _ => 17
  | .sneVxVy _ _ => 18
  | .ldIAddr _ => 19
  | .jpV0Addr _ => 20
  | .rndVxNN _ _ => 21
  | .drwVxVyN _ _ _ => 22
  | .skpVx _ => 23
  | .sknpVx _ => 24
  | .ldVxDT _ => 25
  | .ldVxK _ => 26
  | .ldDTVx _ => 27
  | .ldSTVx _ => 28
  | .addIVx _ => 29
  | .ldFVx _ => 30
  | .ldBVx _ => 31
  | .ldMemVx _ => 32
  | .ldVxMem _ => 33

end Sys2Proof
end

