-- ==== Sys2Proof/Config.lean ====
section
/-! DEFINITION. Config: the implementation parameters of 00_scope.md rule R4 as one record of plain data, and the one free
value of the machine (the random byte of RND). The fixed sizes of R4 are in the types of State; the parameters' standard
values are in Machine/Params.lean. The record is held in State (field `cfg`), so every statement about all states holds for
every MEM_SIZE, FONT_BASE, FONT, TICK_PERIOD, UNKNOWN_POLICY and KEY_PICK (log entries 1 and 2). -/

namespace Sys2Proof

/-- UNKNOWN_POLICY (R4, R63): what an unknown opcode does. -/
inductive UnknownPolicy where
  /-- strict mode: halt with UnknownOpcode -/
  | abort
  /-- permissive mode: report in UNK and go on -/
  | skip
deriving DecidableEq, Repr

/-- The parameters of R4. `keyPick` lists where KEY_PICK differs from its default "lowest set index": pairs of a key mask
and the index it picks. Every function from masks to one of their set bits is such a list (log entry 3). -/
structure Config where
  /-- MEM_SIZE, 4096 to 65536 -/
  memSize : Nat
  /-- FONT_BASE, with FONT_BASE + 80 ≤ 0x200 -/
  fontBase : Nat
  /-- FONT, the 80 font bytes (R22) -/
  font : Vector Byte 80
  /-- TICK_PERIOD, at least 1 -/
  tickPeriod : Nat
  /-- UNKNOWN_POLICY -/
  unknownPolicy : UnknownPolicy
  /-- KEY_PICK, as the masks on which it is not the lowest set index -/
  keyPick : List (Word × Reg)
deriving DecidableEq, Repr

/-- The draw `rnd` of the n-th executed RND (R92, D27; log entry 4): a free value. It has no body, so nothing is known of it:
any of the 256 values, under no law. -/
opaque Config.freeRandomByte : Nat → Byte

end Sys2Proof
end

