-- ==== Sys2Proof/Machine/Params.lean ====
section
/-! DEFINITION. Params: the parameter values that State.reset takes: the defaults of 00_scope.md rule R4, and, for the two
parameters R4 leaves open, the values of log entry 2. -/

namespace Sys2Proof.Machine

/-- Glyphs 0 to 7 of the default FONT (R22; PRESUMED, log entry 5). -/
def fontLow : Vector Byte 40 := #v[
  0xF0, 0x90, 0x90, 0x90, 0xF0,  0x20, 0x60, 0x20, 0x20, 0x70,
  0xF0, 0x10, 0xF0, 0x80, 0xF0,  0xF0, 0x10, 0xF0, 0x10, 0xF0,
  0x90, 0x90, 0xF0, 0x10, 0x10,  0xF0, 0x80, 0xF0, 0x10, 0xF0,
  0xF0, 0x80, 0xF0, 0x90, 0xF0,  0xF0, 0x10, 0x20, 0x40, 0x40]

/-- Glyphs 8 to F of the default FONT (R22; PRESUMED, log entry 5). -/
def fontHigh : Vector Byte 40 := #v[
  0xF0, 0x90, 0xF0, 0x90, 0xF0,  0xF0, 0x90, 0xF0, 0x10, 0xF0,
  0xF0, 0x90, 0xF0, 0x90, 0x90,  0xE0, 0x90, 0xE0, 0x90, 0xE0,
  0xF0, 0x80, 0x80, 0x80, 0xF0,  0xE0, 0x90, 0x90, 0x90, 0xE0,
  0xF0, 0x80, 0xF0, 0x80, 0xF0,  0xF0, 0x80, 0xF0, 0x80, 0x80]

/-- The default FONT (R22). -/
def standardFont : Vector Byte 80 := fontLow ++ fontHigh

/-- The parameters of State.reset (R4). UNKNOWN_POLICY abort is the spec's recommendation; TICK_PERIOD 2 is a DESIGN CHOICE
(log entry 2), on which no statement rests. -/
def standardConfig : Config where
  memSize := 4096
  fontBase := 0x000
  font := standardFont
  tickPeriod := 2
  unknownPolicy := .abort
  keyPick := []

end Sys2Proof.Machine
end

