-- ==== Sys2Proof/Machine/State.lean ====
section
/-! DEFINITION. State: every piece of state 10_state.md gives the machine, as plain data, with the reasons a step can stop and
the state after reset. -/

namespace Sys2Proof.Machine

/-- The causes of FAULT (60_exceptions.md rule R121). A cause is no stop of the model: raising one is a next state. -/
inductive FaultCause where
  /-- raised by the fetch of any cycle -/
  | fetchBound
  /-- raised by CALL with 16 addresses held -/
  | stackOverflow
  /-- raised by RET with none held -/
  | stackUnderflow
  /-- raised by an unknown word under policy abort -/
  | unknownOpcode
  /-- raised by DRW, LD B, LD [I],Vx and LD Vx,[I] past MEM_SIZE -/
  | dataBound
  /-- raised by SKP and SKNP with a key index above 15 -/
  | keypadIndex
deriving DecidableEq, Repr

/-- The FAULT latch (R23). -/
structure FaultRecord where
  valid : Bool
  cause : BitVec 3
  word : Word
  pc : Word
deriving DecidableEq, Repr

/-- The UNK report latch (R24). -/
structure UnknownRecord where
  valid : Bool
  word : Word
  pc : Word
deriving DecidableEq, Repr

/-- The framebuffer: 32 rows of 64 one-bit pixels (R17). -/
abbrev Framebuffer := Vector (Vector Bool 64) 32

/-- Why a host sequence stops. No step answers one: every fatal condition of the spec is a next state (log entry 14). -/
inductive Fault where
  /-- Raised by `boot` when LoadROM answers RomTooLarge: a machine whose load failed is not run (R151, R153, U5). Safe. -/
  | romTooLarge
deriving DecidableEq, Repr

/-- What the model gives no meaning to. -/
inductive Refusal where
  /-- Raised by exec's arm for an instruction not modelled yet: none is left. Safe. -/
  | notModelled (mnemonic : String)
  /-- Raised by the host operation get_pixel outside the grid, a host error (R107, S9). Safe. -/
  | pixelOutsideGrid (row col : Nat)
  /-- Raised by the host operation LoadROM after a LoadROM or a Cycle since the last Reset (R39, R153, S10). Safe. -/
  | loadOutsideReset
  /-- Raised by the host operation Cycle after a LoadROM that failed: such a machine is not run (R151, U5). Safe. -/
  | loadFailed
deriving DecidableEq, Repr

/-- The machine state (10_state.md rules R10 to R24). -/
structure State where
  /-- the parameters of R4; no step changes them (the model's own field, log entry 1) -/
  cfg : Config
  /-- V0..VF (R10); VF is also the flag (R11) -/
  v : Vector Byte 16
  /-- I (R12) -/
  i : Word
  /-- PC (R13): between cycles, the address of the next instruction to fetch -/
  pc : Word
  /-- STACK (R14) -/
  stack : Vector Word 16
  /-- SP (R15): how many return addresses are held -/
  sp : Nat
  /-- MEM (R16): the bytes that differ from the reset contents, by rising address -/
  mem : List Host.Cell
  /-- FB (R17) -/
  fb : Framebuffer
  /-- DIRTY (R18) -/
  dirty : Bool
  /-- KEYMASK (R19): bit k is the latch KEY[k] -/
  key : Word
  /-- DT (R20) -/
  dt : Byte
  /-- ST (R20) -/
  st : Byte
  /-- TICK (R21) -/
  tick : Nat
  /-- FAULT (R23) -/
  fault : FaultRecord
  /-- UNK (R24) -/
  unk : UnknownRecord
  /-- how many RND have executed (the model's own field, log entry 4) -/
  draws : Nat
deriving DecidableEq, Repr

/-- FAULT after reset (R23). -/
def FaultRecord.none : FaultRecord := ⟨false, 0, 0, 0⟩

/-- UNK after reset (R24). -/
def UnknownRecord.none : UnknownRecord := ⟨false, 0, 0⟩

/-- The framebuffer with every pixel 0 (R17, R105). -/
def Framebuffer.blank : Framebuffer := Vector.replicate 32 (Vector.replicate 64 false)

/-- The reset values (R150) under the parameters `c`. -/
def State.resetWith (c : Config) : State where
  cfg := c
  v := Vector.replicate 16 0
  i := 0
  pc := 0x200
  stack := Vector.replicate 16 0
  sp := 0
  mem := []
  fb := Framebuffer.blank
  dirty := false
  key := 0
  dt := 0
  st := 0
  tick := c.tickPeriod
  fault := FaultRecord.none
  unk := UnknownRecord.none
  draws := 0

/-- The machine right after reset (R150), under the parameters of Machine/Params.lean. -/
def State.reset : State := State.resetWith standardConfig

end Sys2Proof.Machine
end

