-- ==== Sys2Proof/Machine/Ops.lean ====
section
/-! DEFINITION. Ops: the named operations over registers, memory, stack, framebuffer, keys and timers; fetch; taking a fault
(`raise`, 60_exceptions.md rule R122); the unknown opcode; the tick; the end of a cycle. There is no return from a fault: only
the host's Reset leaves the halted state (R124; `hostReset` in HostPort.lean). -/

namespace Sys2Proof.Machine

/-! ### Registers -/

/-- Read register Vx (R6, R10). -/
def State.getV (s : State) (x : Reg) : Byte := s.v.get x

/-- Write register Vx (R6, R10). -/
def State.setV (s : State) (x : Reg) (b : Byte) : State := { s with v := s.v.set x.val b x.isLt }

/-- Write the result to Vx first and the flag to VF last (R80). -/
def State.setResultThenFlag (s : State) (x : Reg) (result flag : Byte) : State := (s.setV x result).setV regVF flag

/-! ### Program counter -/

/-- The fetch's advance: PC + 2 modulo 65536 (R61). -/
def State.advance (s : State) : State := { s with pc := s.pc + 2 }

/-- A jump: PC replaced (R6). -/
def State.jump (s : State) (target : Word) : State := { s with pc := target }

/-- A skip over one instruction when `taken`: 2 more added to the advanced PC (R70). -/
def State.skipIf (s : State) (taken : Bool) : State := if taken then { s with pc := s.pc + 2 } else s

/-! ### Memory -/

/-- What an address holds after reset, so what an unlisted address reads as: FONT at FONT_BASE, 0 elsewhere (R16). -/
def resetByte (c : Config) (a : Nat) : Byte :=
  if c.fontBase ≤ a ∧ a < c.fontBase + 80 then (c.font[a - c.fontBase]?).getD 0 else 0

/-- The canonical form of memory: addresses strictly rising and below MEM_SIZE, no entry equal to the reset contents. -/
abbrev Memory.wf (c : Config) (m : List Host.Cell) : Prop :=
  m.Pairwise (fun p q => p.1 < q.1) ∧ ∀ p ∈ m, p.1 < c.memSize ∧ p.2 ≠ resetByte c p.1

/-- The byte at an address. -/
def Memory.read (c : Config) (m : List Host.Cell) (a : Nat) : Byte := (m.lookup a).getD (resetByte c a)

/-- List the byte `b` at address `a`, in address order. -/
def Memory.insert (a : Nat) (b : Byte) : List Host.Cell → List Host.Cell
  | [] => [(a, b)]
  | p :: m =>
    if a < p.1 then (a, b) :: p :: m
    else if a = p.1 then (a, b) :: m
    else p :: Memory.insert a b m

/-- Unlist address `a`. -/
def Memory.erase (a : Nat) (m : List Host.Cell) : List Host.Cell := m.filter fun p => p.1 != a

/-- Store the byte `b` at address `a`, keeping the canonical form. -/
def Memory.write (c : Config) (m : List Host.Cell) (a : Nat) (b : Byte) : List Host.Cell :=
  if b = resetByte c a then Memory.erase a m else Memory.insert a b m

/-- `MemRead(a, 1)` (R6, R36). -/
def State.readByte (s : State) (a : Nat) : Byte := Memory.read s.cfg s.mem a

/-- `MemWrite(a, 1, b)` (R6, R36). -/
def State.writeByte (s : State) (a : Nat) (b : Byte) : State := { s with mem := Memory.write s.cfg s.mem a b }

/-- Store bytes at ascending addresses from `a` (R32). -/
def State.writeBytes (s : State) (a : Nat) : List Byte → State
  | [] => s
  | b :: bs => (s.writeByte a b).writeBytes (a + 1) bs

/-- `MemRead(a, 2)`: big-endian (R32). -/
def State.readWord (s : State) (a : Nat) : Word := wordOfBytes (s.readByte a) (s.readByte (a + 1))

/-- The bound of a data access of `len` bytes at I: every byte I + k below MEM_SIZE, with no wrap; no bytes, no bound (R35;
log entry 9 for `len = 0`). -/
def State.dataInBounds (s : State) (len : Nat) : Bool := decide (len = 0 ∨ s.i.toNat + len ≤ s.cfg.memSize)

/-- The instruction word at PC, or none past the memory bound: `pc0 + 1`, not wrapped, must be below MEM_SIZE (R34, R61). -/
def State.fetch (s : State) : Option Word :=
  if s.pc.toNat + 1 < s.cfg.memSize then some (s.readWord s.pc.toNat) else none

/-- Store a word where the next fetch reads it, if that fetch is within memory. -/
def State.placeWord (s : State) (w : Word) : State :=
  if s.pc.toNat + 1 < s.cfg.memSize then s.writeBytes s.pc.toNat (bytesOfWord w) else s

/-! ### Call stack -/

/-- `STACK[k]` (R14). An index above 15 does not exist and is never read while SP ≤ 16. -/
def State.stackAt (s : State) (k : Nat) : Word := (s.stack[k]?).getD 0

/-- Push: `STACK[SP] <- a`, then SP + 1 (R15). -/
def State.push (s : State) (a : Word) : State := { s with stack := s.stack.setIfInBounds s.sp a, sp := s.sp + 1 }

/-- Pop: SP - 1; the popped entry stays (R15, R71). -/
def State.pop (s : State) : State := { s with sp := s.sp - 1 }

/-! ### Framebuffer -/

/-- `FB[row][col]` (R17). -/
def Framebuffer.pixel (fb : Framebuffer) (row : Fin 32) (col : Fin 64) : Bool := (fb.get row).get col

/-- `FB[row][col] <- FB[row][col] ^ 1` (R106). -/
def Framebuffer.flip (fb : Framebuffer) (row : Fin 32) (col : Fin 64) : Framebuffer :=
  fb.set row.val ((fb.get row).set col.val (!fb.pixel row col) col.isLt) row.isLt

/-- One set sprite bit: note a collision if the pixel was 1, then invert it (R106). -/
def drawPixel (acc : Framebuffer × Bool) (row : Fin 32) (col : Fin 64) : Framebuffer × Bool :=
  (acc.1.flip row col, acc.2 || acc.1.pixel row col)

/-- One sprite row: column c of 0..7 is bit 7 - c, drawn at column (cx + c) mod 64 (R106; bit order log entry 7). -/
def drawRow (bits : Byte) (row : Fin 32) (cx : Nat) (acc : Framebuffer × Bool) : Framebuffer × Bool :=
  (List.range 8).foldl
    (fun acc c => if bits.getLsbD (7 - c) then drawPixel acc row (Fin.ofNat 64 (cx + c)) else acc) acc

/-- An N-row sprite: row r holds the byte `sprite r` and is drawn at row (cy + r) mod 32 (R106). -/
def drawSprite (sprite : Nat → Byte) (n cx cy : Nat) (fb : Framebuffer) : Framebuffer × Bool :=
  (List.range n).foldl (fun acc r => drawRow (sprite r) (Fin.ofNat 32 (cy + r)) cx acc) (fb, false)

/-! ### Keypad -/

/-- `KEY[k] == 1` (R19). -/
def State.keyPressed (s : State) (k : Nat) : Bool := s.key.getLsbD k

/-- The lowest set index of a mask: KEY_PICK's default (R4). -/
def lowestKey (mask : Word) : Nat := ((List.range 16).find? fun k => mask.getLsbD k).getD 0

/-- KEY_PICK (R4): the listed index if the mask is listed with one of its set bits, else the lowest set index. -/
def keyPick (c : Config) (mask : Word) : Nat :=
  match c.keyPick.lookup mask with
  | some k => if mask.getLsbD k.val then k.val else lowestKey mask
  | none => lowestKey mask

/-! ### Taking a fault -/

/-- The cause code (R121). -/
def FaultCause.code : FaultCause → BitVec 3
  | .fetchBound => 1
  | .stackOverflow => 2
  | .stackUnderflow => 3
  | .unknownOpcode => 4
  | .dataBound => 5
  | .keypadIndex => 6

/-- `raise Cause(word, pc)` (R122). `s` is the state at the start of the cycle, so every write of the cycle, the PC advance
included, is discarded; FAULT records cause, word and pc0; `endCycle` skips the tick. -/
def raiseFault (s : State) (cause : FaultCause) (word : Word) : Host.Outcome State Fault Refusal :=
  .next { s with fault := ⟨true, cause.code, word, s.pc⟩ }

/-- An unknown opcode (R63): raise under policy abort; under skip write UNK and go on at pc0 + 2. -/
def unknownOpcode (s : State) (w : Word) : Host.Outcome State Fault Refusal :=
  match s.cfg.unknownPolicy with
  | .abort => raiseFault s .unknownOpcode w
  | .skip => .next { s.advance with unk := ⟨true, w, s.pc⟩ }

/-! ### Timers and the end of a cycle -/

/-- A timer counts down and stops at 0 (R131). -/
def countDown (t : Byte) : Byte := if t = 0 then 0 else t - 1

/-- `Tick()` (R131). -/
def State.timerTick (s : State) : State :=
  if s.tick - 1 = 0 then
    { s with tick := s.cfg.tickPeriod, dt := countDown s.dt, st := countDown s.st }
  else { s with tick := s.tick - 1 }

/-- The end of a cycle: the tick, unless the cycle raised (R60, R64, R122). -/
def endCycle : Host.Outcome State Fault Refusal → Host.Outcome State Fault Refusal
  | .next t => .next (if t.fault.valid then t else t.timerTick)
  | .fault r => .fault r
  | .refused r => .refused r

end Sys2Proof.Machine
end

