-- ==== Sys2Proof/Machine/Operands.lean ====
section
/-! DEFINITION. Operands: the operand forms of 30_encoding.md rule R48 and 43_index_memory.md: immediates used at their own
width, the address I + k, block transfers over V0..VX, the font address, the key operand. -/

namespace Sys2Proof.Machine

/-- The integer address I + k, not wrapped (R35). -/
def State.dataAddr (s : State) (k : Nat) : Nat := s.i.toNat + k

/-- The registers V0..VX, ascending, X included (R99). -/
def regsUpTo (x : Reg) : List Reg := (List.finRange 16).take (x.val + 1)

/-- The bytes of V0..VX in order (R100). -/
def State.regBytes (s : State) (x : Reg) : List Byte := (regsUpTo x).map s.getV

/-- `V[k] <- MemRead(I + k, 1)` for k in 0..X (R101). The loads touch distinct registers and change no memory, so the file is
written at once. -/
def State.loadRegs (s : State) (x : Reg) : State :=
  { s with v := Vector.ofFn fun k : Fin 16 => if k ≤ x then s.readByte (s.dataAddr k.val) else s.getV k }

/-- The font address FONT_BASE + 5 * V[X], the whole byte used (R97). -/
def State.fontAddr (s : State) (x : Reg) : Word := BitVec.ofNat 16 (s.cfg.fontBase + 5 * (s.getV x).toNat)

/-- `NNN + V0` (R78). -/
def State.jumpV0Target (s : State) (nnn : Addr12) : Word := zext12 nnn + zext8 (s.getV 0)

/-- The hundreds, tens and ones digits of a byte (R98). -/
def bcdDigits (b : Byte) : List Byte :=
  [BitVec.ofNat 8 (b.toNat / 100), BitVec.ofNat 8 (b.toNat / 10 % 10), BitVec.ofNat 8 (b.toNat % 10)]

/-- The key index an SKP or SKNP names: the value of V[X], if it is at most 15 (R110). -/
def State.keyOperand (s : State) (x : Reg) : Option Nat :=
  if (s.getV x).toNat ≤ 15 then some (s.getV x).toNat else none

end Sys2Proof.Machine
end

