-- ==== Sys2Proof/Machine/Alu.lean ====
section
/-! DEFINITION. Alu: register load, arithmetic, logic, shifts and the random byte (42_alu.md). Source registers are read from the
state at the start of the cycle, before anything is written (rule R80). -/

namespace Sys2Proof.Machine

/-- LD Vx,NN (R81). -/
def execLdVxNN (x : Reg) (nn : Byte) (s : State) : Host.Outcome State Fault Refusal :=
  .next (s.advance.setV x nn)

/-- ADD Vx,NN (R82): no flag. -/
def execAddVxNN (x : Reg) (nn : Byte) (s : State) : Host.Outcome State Fault Refusal :=
  .next (s.advance.setV x (s.getV x + nn))

/-- LD Vx,Vy (R83). -/
def execLdVxVy (x y : Reg) (s : State) : Host.Outcome State Fault Refusal :=
  .next (s.advance.setV x (s.getV y))

/-- OR Vx,Vy (R84). -/
def execOrVxVy (x y : Reg) (s : State) : Host.Outcome State Fault Refusal :=
  .next (s.advance.setV x (s.getV x ||| s.getV y))

/-- AND Vx,Vy (R85). -/
def execAndVxVy (x y : Reg) (s : State) : Host.Outcome State Fault Refusal :=
  .next (s.advance.setV x (s.getV x &&& s.getV y))

/-- XOR Vx,Vy (R86). -/
def execXorVxVy (x y : Reg) (s : State) : Host.Outcome State Fault Refusal :=
  .next (s.advance.setV x (s.getV x ^^^ s.getV y))

/-- ADD Vx,Vy (R87). -/
def execAddVxVy (x y : Reg) (s : State) : Host.Outcome State Fault Refusal :=
  .next (s.advance.setResultThenFlag x (s.getV x + s.getV y) (carryFlag (s.getV x) (s.getV y)))

/-- SUB Vx,Vy (R88). -/
def execSubVxVy (x y : Reg) (s : State) : Host.Outcome State Fault Refusal :=
  .next (s.advance.setResultThenFlag x (s.getV x - s.getV y) (noBorrowFlag (s.getV x) (s.getV y)))

/-- SHR Vx (R89). -/
def execShrVx (x : Reg) (s : State) : Host.Outcome State Fault Refusal :=
  .next (s.advance.setResultThenFlag x (s.getV x >>> 1) (shiftRightFlag (s.getV x)))

/-- SUBN Vx,Vy (R90). -/
def execSubnVxVy (x y : Reg) (s : State) : Host.Outcome State Fault Refusal :=
  .next (s.advance.setResultThenFlag x (s.getV y - s.getV x) (noBorrowFlag (s.getV y) (s.getV x)))

/-- SHL Vx (R91). -/
def execShlVx (x : Reg) (s : State) : Host.Outcome State Fault Refusal :=
  .next (s.advance.setResultThenFlag x (s.getV x <<< 1) (shiftLeftFlag (s.getV x)))

/-- RND Vx,NN (R92): the draw is a free value, one fresh value per executed RND (log entry 4). -/
def execRndVxNN (x : Reg) (nn : Byte) (s : State) : Host.Outcome State Fault Refusal :=
  .next { s.advance.setV x (Config.freeRandomByte s.draws &&& nn) with draws := s.draws + 1 }

end Sys2Proof.Machine
end

