-- ==== Sys2Proof/Machine/Display.lean ====
section
/-! DEFINITION. Display: CLS and DRW (44_display.md). -/

namespace Sys2Proof.Machine

/-- CLS (R105). -/
def execCls (s : State) : Host.Outcome State Fault Refusal :=
  .next { s.advance with fb := Framebuffer.blank, dirty := true }

/-- The framebuffer and the collision bit DRW computes from the state at the start of the cycle (R106). -/
def State.drawn (s : State) (x y : Reg) (n : Nibble) : Framebuffer × Bool :=
  drawSprite (fun r => s.readByte (s.dataAddr r)) n.toNat (s.getV x).toNat (s.getV y).toNat s.fb

/-- DRW Vx,Vy,N (R106). VF is written last, after V[X] and V[Y] were read. -/
def execDrwVxVyN (x y : Reg) (n : Nibble) (s : State) : Host.Outcome State Fault Refusal :=
  if s.dataInBounds n.toNat then
    .next { s.advance.setV regVF (collisionFlag (s.drawn x y n).2) with fb := (s.drawn x y n).1, dirty := true }
  else raiseFault s .dataBound (encode (.drwVxVyN x y n))

end Sys2Proof.Machine
end

