-- ==== Sys2Proof/Machine/Flow.lean ====
section
/-! DEFINITION. Flow: the control transfer instructions (41_flow.md). In every meaning `s` is the state at the start of the
cycle, with PC = pc0; `s.advance` has the PC the rule's pseudocode starts from (00_scope.md rule R7). -/

namespace Sys2Proof.Machine

/-- RET (R71). -/
def execRet (s : State) : Host.Outcome State Fault Refusal :=
  if s.sp = 0 then raiseFault s .stackUnderflow (encode .ret)
  else .next (s.pop.jump (s.stackAt (s.sp - 1)))

/-- JP addr (R72). -/
def execJpAddr (nnn : Addr12) (s : State) : Host.Outcome State Fault Refusal :=
  .next (s.jump (zext12 nnn))

/-- CALL addr (R73). SP above 16 is not reached (R15). -/
def execCallAddr (nnn : Addr12) (s : State) : Host.Outcome State Fault Refusal :=
  if 16 ≤ s.sp then raiseFault s .stackOverflow (encode (.callAddr nnn))
  else .next ((s.push s.advance.pc).jump (zext12 nnn))

/-- SE Vx,NN (R74). -/
def execSeVxNN (x : Reg) (nn : Byte) (s : State) : Host.Outcome State Fault Refusal :=
  .next (s.advance.skipIf (s.getV x == nn))

/-- SNE Vx,NN (R75). -/
def execSneVxNN (x : Reg) (nn : Byte) (s : State) : Host.Outcome State Fault Refusal :=
  .next (s.advance.skipIf (s.getV x != nn))

/-- SE Vx,Vy (R76). -/
def execSeVxVy (x y : Reg) (s : State) : Host.Outcome State Fault Refusal :=
  .next (s.advance.skipIf (s.getV x == s.getV y))

/-- SNE Vx,Vy (R77). -/
def execSneVxVy (x y : Reg) (s : State) : Host.Outcome State Fault Refusal :=
  .next (s.advance.skipIf (s.getV x != s.getV y))

/-- JP V0,addr (R78). -/
def execJpV0Addr (nnn : Addr12) (s : State) : Host.Outcome State Fault Refusal :=
  .next (s.jump (s.jumpV0Target nnn))

end Sys2Proof.Machine
end

