-- ==== Sys2Proof/Machine/IndexMemory.lean ====
section
/-! DEFINITION. IndexMemory: the address register, loads and stores (43_index_memory.md). The bound of a data access is checked
before anything is changed, and I is kept (rules R35, R99). -/

namespace Sys2Proof.Machine

/-- LD I,addr (R95). -/
def execLdIAddr (nnn : Addr12) (s : State) : Host.Outcome State Fault Refusal :=
  .next { s.advance with i := zext12 nnn }

/-- ADD I,Vx (R96): modulo 65536, VF not written. -/
def execAddIVx (x : Reg) (s : State) : Host.Outcome State Fault Refusal :=
  .next { s.advance with i := s.i + zext8 (s.getV x) }

/-- LD F,Vx (R97). -/
def execLdFVx (x : Reg) (s : State) : Host.Outcome State Fault Refusal :=
  .next { s.advance with i := s.fontAddr x }

/-- LD B,Vx (R98). -/
def execLdBVx (x : Reg) (s : State) : Host.Outcome State Fault Refusal :=
  if s.dataInBounds 3 then .next (s.advance.writeBytes (s.dataAddr 0) (bcdDigits (s.getV x)))
  else raiseFault s .dataBound (encode (.ldBVx x))

/-- LD [I],Vx (R99, R100). -/
def execLdMemVx (x : Reg) (s : State) : Host.Outcome State Fault Refusal :=
  if s.dataInBounds (x.val + 1) then .next (s.advance.writeBytes (s.dataAddr 0) (s.regBytes x))
  else raiseFault s .dataBound (encode (.ldMemVx x))

/-- LD Vx,[I] (R99, R101). -/
def execLdVxMem (x : Reg) (s : State) : Host.Outcome State Fault Refusal :=
  if s.dataInBounds (x.val + 1) then .next (s.advance.loadRegs x)
  else raiseFault s .dataBound (encode (.ldVxMem x))

end Sys2Proof.Machine
end

