-- ==== Sys2Proof/Machine/KeypadTimers.lean ====
section
/-! DEFINITION. KeypadTimers: the keypad and timer instructions (45_keypad_timers.md). -/

namespace Sys2Proof.Machine

/-- SKP Vx (R110). -/
def execSkpVx (x : Reg) (s : State) : Host.Outcome State Fault Refusal :=
  match s.keyOperand x with
  | some k => .next (s.advance.skipIf (s.keyPressed k))
  | none => raiseFault s .keypadIndex (encode (.skpVx x))

/-- SKNP Vx (R111). -/
def execSknpVx (x : Reg) (s : State) : Host.Outcome State Fault Refusal :=
  match s.keyOperand x with
  | some k => .next (s.advance.skipIf (!s.keyPressed k))
  | none => raiseFault s .keypadIndex (encode (.sknpVx x))

/-- LD Vx,DT (R112). -/
def execLdVxDT (x : Reg) (s : State) : Host.Outcome State Fault Refusal :=
  .next (s.advance.setV x s.dt)

/-- LD Vx,K (R113): with no key latched PC is rewound, so the instruction runs again next cycle. -/
def execLdVxK (x : Reg) (s : State) : Host.Outcome State Fault Refusal :=
  if s.key = 0 then .next (s.advance.jump (s.advance.pc - 2))
  else .next (s.advance.setV x (BitVec.ofNat 8 (keyPick s.cfg s.key)))

/-- LD DT,Vx (R114). -/
def execLdDTVx (x : Reg) (s : State) : Host.Outcome State Fault Refusal :=
  .next { s.advance with dt := s.getV x }

/-- LD ST,Vx (R115). -/
def execLdSTVx (x : Reg) (s : State) : Host.Outcome State Fault Refusal :=
  .next { s.advance with st := s.getV x }

end Sys2Proof.Machine
end

