-- ==== Sys2Proof/Machine/Step.lean ====
section
/-! DEFINITION. Step: one cycle (40_cycle.md rule R60), and where a word is placed so that the next step fetches it. -/

namespace Sys2Proof.Machine

/-- One cycle (R60): nothing when halted (R65); else fetch (R61), decode (R62), execute or unknown opcode (R63), and the
tick unless the cycle raised (R64). -/
def step (s : State) : Host.Outcome State Fault Refusal :=
  if s.fault.valid then .next s
  else
    match s.fetch with
    | none => endCycle (raiseFault s .fetchBound 0)
    | some w =>
      match decodeWord w with
      | .ok i => endCycle (exec i s)
      | .error _ => endCycle (unknownOpcode s w)

/-- `s` with the instruction of a table row stored at PC (log entry 13). -/
def State.withFetchWord (s : State) (nbits w : Nat) : State := s.placeWord (tableWord nbits w)

end Sys2Proof.Machine
end

