-- ==== Sys2Proof/Machine/HostPort.lean ====
section
/-! DEFINITION. HostPort: the host operations, the whole interface of the block (60_exceptions.md rule R134), each happening
wholly between cycles, and their interleaving with cycles (20_memory.md rule R39). A LoadROM is allowed once, before the first
cycle, and a failed one forbids cycles (70_reset_and_hazards.md rules R151, R153): what the host may still do is the `phase` of
a `Session`, beside the machine and no part of it (R25; log entry 11). -/

namespace Sys2Proof.Machine

/-- `Reset()` (R150): every piece of state at its reset value. The parameters stay, and the count of draws goes on, since the
random generator is the host's and is not reset (R25; log entry 12). -/
def hostReset (s : State) : State := { State.resetWith s.cfg with draws := s.draws }

/-- What the host has done since the last Reset, as far as it decides what it may do next (R151, R153). -/
inductive LoadPhase where
  /-- neither LoadROM nor Cycle: LoadROM is allowed -/
  | awaitingLoad
  /-- a ROM was loaded, or a cycle has run: LoadROM is refused (R39, S10) -/
  | closed
  /-- LoadROM answered RomTooLarge: LoadROM and Cycle are refused (U5) -/
  | failed
deriving DecidableEq, Repr

/-- The machine as the host holds it. -/
structure Session where
  machine : State
  phase : LoadPhase
deriving DecidableEq, Repr

/-- Right after the first Reset, under the parameters `c`. -/
def Session.start (c : Config) : Session := ⟨State.resetWith c, .awaitingLoad⟩

/-- `SetKey(k, pressed)` (R19, R134): only the latch k changes. -/
def setKey (k : Reg) (pressed : Bool) (s : State) : State :=
  { s with key := if pressed then s.key ||| BitVec.twoPow 16 k.val else s.key &&& ~~~ BitVec.twoPow 16 k.val }

/-- `clear_dirty()` (R108). -/
def clearDirty (s : State) : State := { s with dirty := false }

/-- `sound_active()` (R20, R132). -/
def soundActive (s : State) : Bool := s.st != 0

/-- `get_pixel(row, col)` inside the grid (R107). -/
def pixelAt (s : State) (row col : Nat) : Option Bool :=
  if h : row < 32 ∧ col < 64 then some (s.fb.pixel ⟨row, h.1⟩ ⟨col, h.2⟩) else none

/-- The host operations of R134. -/
inductive HostOp where
  | reset
  | loadRom (bytes : List Byte)
  | cycle
  | setKey (k : Reg) (pressed : Bool)
  | getPixel (row col : Nat)
  | dirty
  | clearDirty
  | soundActive
  | fault
  | unknownReport
deriving DecidableEq, Repr

/-- What a host operation answers. -/
inductive Reply where
  /-- the operation is done and answers nothing -/
  | done
  /-- LoadROM copied the image -/
  | loaded
  /-- LoadROM refused an over-long image whole (R126, R153) -/
  | romTooLarge
  /-- the bit asked for -/
  | bit (b : Bool)
  /-- FAULT -/
  | faultRecord (r : FaultRecord)
  /-- UNK -/
  | unknownRecord (r : UnknownRecord)
deriving DecidableEq, Repr

/-- `LoadROM(bytes)` (R153): once, before the first cycle; an over-long image changes no byte; else the bytes go to 0x200 upward. -/
def loadRom (bytes : List Byte) (p : Session) : Host.Outcome (Session × Reply) Fault Refusal :=
  match p.phase with
  | .awaitingLoad =>
    if p.machine.cfg.memSize < 0x200 + bytes.length then .next (⟨p.machine, .failed⟩, .romTooLarge)
    else .next (⟨p.machine.writeBytes 0x200 bytes, .closed⟩, .loaded)
  | .closed => .refused .loadOutsideReset
  | .failed => .refused .loadOutsideReset

/-- `Cycle(rnd)` as a host operation: a step that answers nothing and after which no ROM is loaded, refused after a failed load
(R39, R151, U5). -/
def cycleOp (p : Session) : Host.Outcome (Session × Reply) Fault Refusal :=
  if p.phase = .failed then .refused .loadFailed
  else
    match step p.machine with
    | .next t => .next (⟨t, .closed⟩, .done)
    | .fault r => .fault r
    | .refused r => .refused r

/-- `n` cycles, one after another, stopping at a fault or a refusal (R8). -/
def runCycles : Nat → State → Host.Outcome State Fault Refusal
  | 0, s => .next s
  | n + 1, s =>
    match step s with
    | .next t => runCycles n t
    | .fault r => .fault r
    | .refused r => .refused r

/-- One host operation: the session after it and its answer (R134). -/
def hostStep (op : HostOp) (p : Session) : Host.Outcome (Session × Reply) Fault Refusal :=
  match op with
  | .reset => .next (⟨hostReset p.machine, .awaitingLoad⟩, .done)
  | .loadRom bytes => loadRom bytes p
  | .cycle => cycleOp p
  | .setKey k pressed => .next ({ p with machine := setKey k pressed p.machine }, .done)
  | .getPixel row col =>
    match pixelAt p.machine row col with
    | some b => .next (p, .bit b)
    | none => .refused (.pixelOutsideGrid row col)
  | .dirty => .next (p, .bit p.machine.dirty)
  | .clearDirty => .next ({ p with machine := clearDirty p.machine }, .done)
  | .soundActive => .next (p, .bit (soundActive p.machine))
  | .fault => .next (p, .faultRecord p.machine.fault)
  | .unknownReport => .next (p, .unknownRecord p.machine.unk)

/-- Host operations and cycles, one after another, whole (R38, R39). -/
def hostRun : List HostOp → Session → Host.Outcome Session Fault Refusal
  | [], p => .next p
  | op :: ops, p =>
    match hostStep op p with
    | .next r => hostRun ops r.1
    | .fault r => .fault r
    | .refused r => .refused r

/-- The boot order (R151): Reset, then LoadROM, which must succeed; a machine whose load failed is not run (U5). -/
def boot (c : Config) (rom : List Byte) : Host.Outcome Session Fault Refusal :=
  match loadRom rom (Session.start c) with
  | .next (p, .loaded) => .next p
  | .next (_, _) => .fault .romTooLarge
  | .fault r => .fault r
  | .refused r => .refused r

end Sys2Proof.Machine
end

