-- ==== Sys2Proof/WellFormed.lean ====
section
/-! DEFINITION. WellFormed: the checks on the machine's plain data that the types do not make. An instruction needs none: each
operand of Instr has exactly its field's width (30_encoding.md rules R46, R48), so every term of Instr is well formed. The
parameters of 00_scope.md rule R4 carry ranges, which are checked here. -/

namespace Sys2Proof

/-- MEM_SIZE is in its range (R4). -/
def Config.memSizeOk (c : Config) : Bool := decide (4096 ≤ c.memSize ∧ c.memSize ≤ 65536)

/-- The font lies in the reserved region below 0x200 (R4). -/
def Config.fontBaseOk (c : Config) : Bool := decide (c.fontBase + 80 ≤ 0x200)

/-- TICK_PERIOD is at least 1 (R4). -/
def Config.tickPeriodOk (c : Config) : Bool := decide (1 ≤ c.tickPeriod)

/-- KEY_PICK picks the index of a set bit of its mask (R4). -/
def Config.keyPickOk (c : Config) : Bool := c.keyPick.all fun p => p.1.getLsbD p.2.val

/-- All the ranges of R4. -/
def Config.wellFormed (c : Config) : Bool :=
  c.memSizeOk && c.fontBaseOk && c.tickPeriodOk && c.keyPickOk

end Sys2Proof
end

