-- ==== Sys2Proof/Safety.lean ====
section
/-! DEFINITION. Safety: what counts as a safe state and run, and the vocabulary of the statements: the invariant of 10_state.md
rule R27, the access table of rule R26, the destination registers of each instruction, the set of unknown words of
30_encoding.md rule R52, and when an instruction raises. -/

namespace Sys2Proof.Machine

/-- Not halted (R65). -/
def State.running (s : State) : Prop := s.fault.valid = false

/-- FAULT is as reset leaves it, or holds one of the six causes of R121 and the address PC still has (R122, R124). -/
abbrev State.faultLegal (s : State) : Prop :=
  s.fault = FaultRecord.none ∨ (s.fault.valid = true ∧ 1 ≤ s.fault.cause.toNat ∧ s.fault.cause.toNat ≤ 6 ∧ s.fault.pc = s.pc)

/-- UNK is as reset leaves it, unless the policy is skip (R24). -/
abbrev State.reportLegal (s : State) : Prop :=
  s.unk = UnknownRecord.none ∨ (s.unk.valid = true ∧ s.cfg.unknownPolicy = .skip)

/-- The invariant: legal parameters (R4), 0 ≤ SP ≤ 16 and 1 ≤ TICK ≤ TICK_PERIOD (R27), memory in canonical form, and the two
latches legal. The other bounds of R27 are the widths of the fields. -/
abbrev State.Inv (s : State) : Prop :=
  s.cfg.wellFormed = true ∧ s.sp ≤ 16 ∧ (1 ≤ s.tick ∧ s.tick ≤ s.cfg.tickPeriod) ∧ Memory.wf s.cfg s.mem ∧
    s.faultLegal ∧ s.reportLegal

/-- Every field but the key latches, which are the host's, and the count of draws, which no reset touches, has its reset value
(R150; log entries 11 and 12). -/
abbrev State.inResetState (s : State) : Prop := s = { State.resetWith s.cfg with key := s.key, draws := s.draws }

/-- The invariant of a session: that of its machine, which is in the reset state until a ROM is loaded or a cycle runs (R39,
R151, R153). -/
abbrev Session.Inv (p : Session) : Prop := p.machine.Inv ∧ (p.phase ≠ .closed → p.machine.inResetState)

/-- The columns of R26, the latches, and the model's own two fields. -/
inductive StateField where
  | regs | indexReg | pc | callStack | memory | framebuffer | dirty | keys | delayTimer | soundTimer | tickCounter
  | faultLatch | unknownLatch | parameters | drawCount
deriving DecidableEq, Repr

/-- The field has the same value in both states. Memory is compared through the read of each byte. -/
def StateField.same : StateField → State → State → Prop
  | .regs, s, t => ∀ r, t.getV r = s.getV r
  | .indexReg, s, t => t.i = s.i
  | .pc, s, t => t.pc = s.pc
  | .callStack, s, t => t.stack = s.stack ∧ t.sp = s.sp
  | .memory, s, t => ∀ a, t.readByte a = s.readByte a
  | .framebuffer, s, t => t.fb = s.fb
  | .dirty, s, t => t.dirty = s.dirty
  | .keys, s, t => t.key = s.key
  | .delayTimer, s, t => t.dt = s.dt
  | .soundTimer, s, t => t.st = s.st
  | .tickCounter, s, t => t.tick = s.tick
  | .faultLatch, s, t => t.fault = s.fault
  | .unknownLatch, s, t => t.unk = s.unk
  | .parameters, s, t => t.cfg = s.cfg
  | .drawCount, s, t => t.draws = s.draws

/-- What each instruction may write (the w and w* of R26; PC is written by every instruction's fetch; RND advances the model's
count of draws). -/
def writesField : Instr → List StateField
  | .cls => [.pc, .framebuffer, .dirty]
  | .ret | .callAddr _ => [.pc, .callStack]
  | .jpAddr _ | .jpV0Addr _ | .seVxNN _ _ | .sneVxNN _ _ | .seVxVy _ _ | .sneVxVy _ _ | .skpVx _ | .sknpVx _ => [.pc]
  | .ldVxNN _ _ | .addVxNN _ _ | .ldVxVy _ _ | .orVxVy _ _ | .andVxVy _ _ | .xorVxVy _ _ | .addVxVy _ _ | .subVxVy _ _
  | .shrVx _ | .subnVxVy _ _ | .shlVx _ | .ldVxDT _ | .ldVxK _ | .ldVxMem _ => [.pc, .regs]
  | .rndVxNN _ _ => [.pc, .regs, .drawCount]
  | .ldIAddr _ | .addIVx _ | .ldFVx _ => [.pc, .indexReg]
  | .drwVxVyN _ _ _ => [.pc, .regs, .framebuffer, .dirty]
  | .ldDTVx _ => [.pc, .delayTimer]
  | .ldSTVx _ => [.pc, .soundTimer]
  | .ldBVx _ | .ldMemVx _ => [.pc, .memory]

/-- The instruction writes VF as a flag (R11). -/
def writesFlag : Instr → Bool
  | .addVxVy _ _ | .subVxVy _ _ | .subnVxVy _ _ | .shrVx _ | .shlVx _ | .drwVxVyN _ _ _ => true
  | .cls | .ret | .jpAddr _ | .callAddr _ | .seVxNN _ _ | .sneVxNN _ _ | .seVxVy _ _ | .ldVxNN _ _ | .addVxNN _ _
  | .ldVxVy _ _ | .orVxVy _ _ | .andVxVy _ _ | .xorVxVy _ _ | .sneVxVy _ _ | .ldIAddr _ | .jpV0Addr _ | .rndVxNN _ _
  | .skpVx _ | .sknpVx _ | .ldVxDT _ | .ldVxK _ | .ldDTVx _ | .ldSTVx _ | .addIVx _ | .ldFVx _ | .ldBVx _ | .ldMemVx _
  | .ldVxMem _ => false

/-- The register is a destination of the instruction, VF as a flag apart (R26). -/
def isDestination : Instr → Reg → Bool
  | .ldVxNN x _, r | .addVxNN x _, r | .ldVxVy x _, r | .orVxVy x _, r | .andVxVy x _, r | .xorVxVy x _, r
  | .addVxVy x _, r | .subVxVy x _, r | .shrVx x, r | .subnVxVy x _, r | .shlVx x, r | .rndVxNN x _, r | .ldVxDT x, r
  | .ldVxK x, r => r == x
  | .ldVxMem x, r => decide (r ≤ x)
  | .cls, _ | .ret, _ | .jpAddr _, _ | .callAddr _, _ | .seVxNN _ _, _ | .sneVxNN _ _, _ | .seVxVy _ _, _
  | .sneVxVy _ _, _ | .ldIAddr _, _ | .jpV0Addr _, _ | .drwVxVyN _ _ _, _ | .skpVx _, _ | .sknpVx _, _ | .ldDTVx _, _
  | .ldSTVx _, _ | .addIVx _, _ | .ldFVx _, _ | .ldBVx _, _ | .ldMemVx _, _ => false

/-- How many bytes the instruction stores at I (R30, R98, R100). -/
def storedLength : Instr → Nat
  | .ldBVx _ => 3
  | .ldMemVx x => x.val + 1
  | .cls | .ret | .jpAddr _ | .callAddr _ | .seVxNN _ _ | .sneVxNN _ _ | .seVxVy _ _ | .ldVxNN _ _ | .addVxNN _ _
  | .ldVxVy _ _ | .orVxVy _ _ | .andVxVy _ _ | .xorVxVy _ _ | .addVxVy _ _ | .subVxVy _ _ | .shrVx _ | .subnVxVy _ _
  | .shlVx _ | .sneVxVy _ _ | .ldIAddr _ | .jpV0Addr _ | .rndVxNN _ _ | .drwVxVyN _ _ _ | .skpVx _ | .sknpVx _
  | .ldVxDT _ | .ldVxK _ | .ldDTVx _ | .ldSTVx _ | .addIVx _ | .ldFVx _ | .ldVxMem _ => 0

/-- The instruction may replace, skip or rewind PC; every other one only advances it (R13, R61). -/
def transfersControl : Instr → Bool
  | .ret | .jpAddr _ | .callAddr _ | .seVxNN _ _ | .sneVxNN _ _ | .seVxVy _ _ | .sneVxVy _ _ | .jpV0Addr _ | .skpVx _
  | .sknpVx _ | .ldVxK _ => true
  | .cls | .ldVxNN _ _ | .addVxNN _ _ | .ldVxVy _ _ | .orVxVy _ _ | .andVxVy _ _ | .xorVxVy _ _ | .addVxVy _ _
  | .subVxVy _ _ | .shrVx _ | .subnVxVy _ _ | .shlVx _ | .ldIAddr _ | .rndVxNN _ _ | .drwVxVyN _ _ _ | .ldVxDT _
  | .ldDTVx _ | .ldSTVx _ | .addIVx _ | .ldFVx _ | .ldBVx _ | .ldMemVx _ | .ldVxMem _ => false

/-- The one cause an instruction can raise, and when (R121, R123): the condition column of R121. -/
def raisesWhen : Instr → State → Option FaultCause
  | .callAddr _, s => if 16 ≤ s.sp then some .stackOverflow else none
  | .ret, s => if s.sp = 0 then some .stackUnderflow else none
  | .drwVxVyN _ _ n, s => if 0 < n.toNat ∧ s.cfg.memSize < s.i.toNat + n.toNat then some .dataBound else none
  | .ldBVx _, s => if s.cfg.memSize < s.i.toNat + 3 then some .dataBound else none
  | .ldMemVx x, s | .ldVxMem x, s => if s.cfg.memSize < s.i.toNat + x.val + 1 then some .dataBound else none
  | .skpVx x, s | .sknpVx x, s => if 15 < (s.getV x).toNat then some .keypadIndex else none
  | .cls, _ | .jpAddr _, _ | .seVxNN _ _, _ | .sneVxNN _ _, _ | .seVxVy _ _, _ | .ldVxNN _ _, _ | .addVxNN _ _, _
  | .ldVxVy _ _, _ | .orVxVy _ _, _ | .andVxVy _ _, _ | .xorVxVy _ _, _ | .addVxVy _ _, _ | .subVxVy _ _, _ | .shrVx _, _
  | .subnVxVy _ _, _ | .shlVx _, _ | .sneVxVy _ _, _ | .ldIAddr _, _ | .jpV0Addr _, _ | .rndVxNN _ _, _ | .ldVxDT _, _
  | .ldVxK _, _ | .ldDTVx _, _ | .ldSTVx _, _ | .addIVx _, _ | .ldFVx _, _ => none

/-- The unknown words of R52, family by family. -/
def unknownWord (w : Word) : Prop :=
  (fieldFam w = 0x0 ∧ w ≠ 0x00E0 ∧ w ≠ 0x00EE) ∨
  (fieldFam w = 0x8 ∧ fieldN w ∈ [0x8#4, 0x9#4, 0xA#4, 0xB#4, 0xC#4, 0xD#4, 0xF#4]) ∨
  (fieldFam w = 0xE ∧ fieldNN w ∉ [0x9E#8, 0xA1#8]) ∨
  (fieldFam w = 0xF ∧ fieldNN w ∉ [0x07#8, 0x0A#8, 0x15#8, 0x18#8, 0x1E#8, 0x29#8, 0x33#8, 0x55#8, 0x65#8])

/-- `o` is the next state in which Vx holds `b`, PC is advanced by 2, and everything else is as in `s`. -/
def setsRegister (o : Host.Outcome State Fault Refusal) (s : State) (x : Reg) (b : Byte) : Prop :=
  ∃ t, o = .next t ∧ (∀ r, t.getV r = if r = x then b else s.getV r) ∧ t = { s with v := t.v, pc := s.pc + 2 }

/-- `o` is the next state in which VF holds the flag `f`, Vx holds `b` unless it is VF, PC is advanced by 2, and everything
else is as in `s` (R80: the flag is the last write). -/
def setsRegisterAndFlag (o : Host.Outcome State Fault Refusal) (s : State) (x : Reg) (b f : Byte) : Prop :=
  ∃ t, o = .next t ∧ (∀ r, t.getV r = if r = regVF then f else if r = x then b else s.getV r) ∧
    t = { s with v := t.v, pc := s.pc + 2 }

/-- `o` is the fault of R122: FAULT records the cause's code, the word and PC, and everything else is as in `s`. -/
def raises (o : Host.Outcome State Fault Refusal) (s : State) (code : BitVec 3) (word : Word) : Prop :=
  o = .next { s with fault := ⟨true, code, word, s.pc⟩ }

/-- The sprite of DRW has a 1 bit on this pixel (R106): with r the row's distance below V[Y] modulo 32 and c the column's
distance right of V[X] modulo 64, r < N, c < 8 and bit 7 - c of the byte at I + r is 1. -/
def State.spriteBit (s : State) (x y : Reg) (n : Nibble) (row : Fin 32) (col : Fin 64) : Bool :=
  let r := (row.val + 32 - (s.getV y).toNat % 32) % 32
  let c := (col.val + 64 - (s.getV x).toNat % 64) % 64
  decide (r < n.toNat ∧ c < 8) && (s.readByte (s.i.toNat + r)).getLsbD (7 - c)

/-- `t` is `s` but for stack entries at SP and above, which are stale (R14). -/
def State.sameButStale (s t : State) : Prop :=
  t = { s with stack := t.stack } ∧ ∀ k < s.sp, t.stackAt k = s.stackAt k

/-- `t` is `s` but for ST, DIRTY and UNK, which no instruction reads (R18, R20, R24). -/
def State.sameButOutputs (s t : State) : Prop :=
  t = { s with st := t.st, dirty := t.dirty, unk := t.unk }

end Sys2Proof.Machine
end

