-- ==== Sys2Proof/Certificates/Slice0/Obligations.lean ====
section
/-! DEFINITION. Obligations: the statements for the provers. In each, `exec i s` is one instruction from the state `s` at the
start of its cycle (PC = pc0), and `step s` is the whole cycle. Each docstring names the rules of spec/ the statement follows,
and the log entry for what rests on a choice of the spec or of the model. -/

open Sys2Proof Sys2Proof.Machine

/-! ### Encoding -/

/-- One word of every family, and the three the source gives (R50, R51, 95_test_vectors.md): each decodes to its instruction. The
numbers rest on log entry 6. -/
def Obligations.DecodesSampleWords : Prop :=
  decodeWord 0x00E0 = .ok .cls ∧ decodeWord 0x00EE = .ok .ret ∧ decodeWord 0x1234 = .ok (.jpAddr 0x234) ∧
  decodeWord 0x2FFF = .ok (.callAddr 0xFFF) ∧ decodeWord 0x3A42 = .ok (.seVxNN 0xA 0x42) ∧
  decodeWord 0x4A42 = .ok (.sneVxNN 0xA 0x42) ∧ decodeWord 0x5AB7 = .ok (.seVxVy 0xA 0xB) ∧
  decodeWord 0x6005 = .ok (.ldVxNN 0 0x05) ∧ decodeWord 0x7003 = .ok (.addVxNN 0 0x03) ∧
  decodeWord 0x8014 = .ok (.addVxVy 0 1) ∧ decodeWord 0x8ABE = .ok (.shlVx 0xA) ∧
  decodeWord 0x9ABF = .ok (.sneVxVy 0xA 0xB) ∧ decodeWord 0xA123 = .ok (.ldIAddr 0x123) ∧
  decodeWord 0xBFFF = .ok (.jpV0Addr 0xFFF) ∧ decodeWord 0xC2FF = .ok (.rndVxNN 2 0xFF) ∧
  decodeWord 0xD12F = .ok (.drwVxVyN 1 2 0xF) ∧ decodeWord 0xE1A1 = .ok (.sknpVx 1) ∧ decodeWord 0xF155 = .ok (.ldMemVx 1)

/-- The six fields of R46, for every word, by masking and shifting; NNN = X, Y, N and NN = Y, N. -/
def Obligations.FieldsAreMaskedAndShifted : Prop :=
  ∀ w : Word,
    (fieldFam w).toNat = (w.toNat >>> 12) &&& 0xF ∧ (fieldX w).val = (w.toNat >>> 8) &&& 0xF ∧
    (fieldY w).val = (w.toNat >>> 4) &&& 0xF ∧ (fieldN w).toNat = w.toNat &&& 0xF ∧
    (fieldNN w).toNat = w.toNat &&& 0xFF ∧ (fieldNNN w).toNat = w.toNat &&& 0xFFF ∧
    (fieldNNN w).toNat = 256 * (fieldX w).val + 16 * (fieldY w).val + (fieldN w).toNat ∧
    (fieldNN w).toNat = 16 * (fieldY w).val + (fieldN w).toNat

/-- Decoding an encoded instruction gives it back, with every operand at every value, as a word and as the first two bytes of any
stream (R45, R50). -/
def Obligations.DecodeInvertsEncode : Prop :=
  ∀ (i : Instr) (rest : List Byte),
    decodeWord (encode i) = .ok i ∧ decodeBytes (encodeBytes i ++ rest) = .ok (i, rest)

/-- Exactly the bits of R53 are ignored: a word that decodes is its instruction's encoding but for those bits, and two words are
the same instruction iff they differ only there (decisions D7 and D12 of the spec, log entry 10). -/
def Obligations.OnlyIgnoredBitsAreDropped : Prop :=
  ∀ (w : Word) (i : Instr), decodeWord w = .ok i →
    encode i = clearIgnoredBits w ∧ ∀ w' : Word, decodeWord w' = .ok i ↔ clearIgnoredBits w' = clearIgnoredBits w

/-- The decoder is the opcode table of R50: a word that decodes selects its instruction's row, and a word that selects a row
decodes to that row's instruction. The numbers rest on log entry 6. -/
def Obligations.DecoderFollowsOpcodeTable : Prop :=
  (∀ (w : Word) (i : Instr), decodeWord w = .ok i →
    ∃ r, opcodeTable[rowIndex i]? = some r ∧ w &&& r.mask = r.value) ∧
  ∀ (w : Word) (r : OpcodeRow), r ∈ opcodeTable → w &&& r.mask = r.value →
    ∃ i, decodeWord w = .ok i ∧ opcodeTable[rowIndex i]? = some r

/-- The decoder rejects exactly the words R52 lists as unknown (decision D6, log entries 6 and 10). -/
def Obligations.RejectsExactlyUnknownWords : Prop :=
  ∀ w : Word, (∃ e, decodeWord w = .error e) ↔ unknownWord w

/-! ### The cycle -/

/-- A running machine executes the instruction whose bytes stand at PC and PC + 1, and the tick follows unless it raised (R60,
R62, R64). -/
def Obligations.StepRunsDecodedInstruction : Prop :=
  ∀ (s t : State) (i : Instr), s.running → s.pc.toNat + 1 < s.cfg.memSize →
    decodeBytes [s.readByte s.pc.toNat, s.readByte (s.pc.toNat + 1)] = .ok (i, []) → exec i s = .next t →
    step s = .next (if t.fault.valid then t else t.timerTick)

/-- The fetched word is big-endian, and there is one iff PC + 1, not wrapped, is below MEM_SIZE (R32, R34, R61). -/
def Obligations.FetchIsBigEndianWithinMemory : Prop :=
  ∀ (s : State) (w : Word),
    s.fetch = some w ↔
      s.pc.toNat + 1 < s.cfg.memSize ∧
        w.toNat = 256 * (s.readByte s.pc.toNat).toNat + (s.readByte (s.pc.toNat + 1)).toNat

/-- A fetch past the memory bound raises FetchBound with word 0 and the address of the fetch (R34, R61, R121). -/
def Obligations.FetchPastMemoryRaises : Prop :=
  ∀ s : State, s.running → s.cfg.memSize ≤ s.pc.toNat + 1 → raises (step s) s 1 0

/-- An unknown opcode raises under policy abort, and under skip leaves a report, goes on at PC + 2 and ticks (R63; decision D8,
log entry 10). -/
def Obligations.UnknownOpcodeFollowsPolicy : Prop :=
  ∀ (s : State) (w : Word), s.running → s.fetch = some w → unknownWord w →
    (s.cfg.unknownPolicy = .abort → raises (step s) s 4 w) ∧
    (s.cfg.unknownPolicy = .skip →
      step s = .next ({ s with pc := s.pc + 2, unk := ⟨true, w, s.pc⟩ } : State).timerTick)

/-- A step never stops the model: every state has a next state, and so has every instruction in every state. That a fatal
condition is a next state with FAULT written is the model's choice (log entry 14, from R122), and so is a next state for RET with
SP above 16, where no run comes (log entry 16). -/
def Obligations.EveryStepAnswersNext : Prop :=
  (∀ s : State, ∃ t, step s = .next t) ∧ ∀ (i : Instr) (s : State), ∃ t, exec i s = .next t

/-- A halted machine stays as it is, however many cycles the host calls (R65; decision D9, log entry 10). -/
def Obligations.HaltedMachineNeverChanges : Prop :=
  ∀ (s : State) (n : Nat), s.fault.valid = true → runCycles n s = .next s

/-- Faults are precise: a cycle that raises leaves everything but FAULT as it was, the PC and the tick included, and FAULT holds
the address and the word of the instruction, 0 if no word was read (R23, R122; decision D9, log entry 10). -/
def Obligations.FaultsArePrecise : Prop :=
  ∀ s t : State, s.running → step s = .next t → t.fault.valid = true →
    t = { s with fault := t.fault } ∧ t.fault.pc = s.pc ∧ t.fault.word = s.fetch.getD 0

/-- Each instruction raises the one cause R121 gives it, with its own word, exactly on the condition `raisesWhen`; on every other
state it leaves FAULT alone (R121, R123; decisions D3 and D20, log entries 9 and 10). With SP at most 16 the condition is that of
R121; with SP above 16, where no run comes, CALL raising and RET running are the model's choice (log entry 16). -/
def Obligations.InstructionsRaiseExactlyTheirCause : Prop :=
  ∀ (i : Instr) (s : State),
    (∀ c, raisesWhen i s = some c → raises (exec i s) s c.code (encode i)) ∧
    (raisesWhen i s = none → ∃ t, exec i s = .next t ∧ t.fault = s.fault)

/-- The tick from TICK = n: n - 1 ticks only count TICK down, the n-th reloads it and takes one from each timer that is not 0
(R131; decision D21, log entry 10). -/
def Obligations.TimersUpdateOncePerPeriod : Prop :=
  ∀ s : State, 1 ≤ s.tick →
    (∀ k < s.tick, State.timerTick^[k] s = { s with tick := s.tick - k }) ∧
    State.timerTick^[s.tick] s =
      { s with tick := s.cfg.tickPeriod, dt := BitVec.ofNat 8 (s.dt.toNat - 1), st := BitVec.ofNat 8 (s.st.toNat - 1) }

/-- Every instruction that transfers no control leaves PC two further, exactly (R13, R61). -/
def Obligations.PlainInstructionsAdvanceByTwo : Prop :=
  ∀ (i : Instr) (s t : State), transfersControl i = false → s.running → exec i s = .next t → t.running → t.pc = s.pc + 2

/-! ### Invariant, reset and the host -/

/-- The invariant of R4, R23, R24, R27 and of the model's memory is kept by every step. -/
def Obligations.InvariantKeptByStep : Prop :=
  ∀ s t : State, s.Inv → step s = .next t → t.Inv

/-- The invariant holds right after reset, for every legal choice of parameters (R27, R150). -/
def Obligations.InvariantHoldsAtReset : Prop :=
  State.reset.Inv ∧ ∀ c : Config, c.wellFormed = true → (State.resetWith c).Inv

/-- The invariant holds along every interleaving of host operations and cycles, and until a ROM is loaded or a cycle runs the
machine is in the reset state but for KEY (R27, R38, R39, R151, R153; log entries 11 and 12). -/
def Obligations.InvariantKeptByHostRun : Prop :=
  ∀ (ops : List HostOp) (p q : Session), p.Inv → hostRun ops p = .next q → q.Inv

/-- Reset values (R150), under every choice of parameters. I, FB, DIRTY, KEY, TICK and memory outside the font rest on the
spec's decisions D21 and D23 (log entry 8). -/
def Obligations.ResetValues : Prop :=
  ∀ (c : Config) (s : State), s = State.resetWith c →
    s.cfg = c ∧ (∀ r, s.getV r = 0) ∧ s.i = 0 ∧ s.pc = 0x200 ∧ (∀ k < 16, s.stackAt k = 0) ∧ s.sp = 0 ∧
    (∀ row col, s.fb.pixel row col = false) ∧ s.dirty = false ∧ s.key = 0 ∧ s.dt = 0 ∧ s.st = 0 ∧
    s.tick = c.tickPeriod ∧ s.fault = ⟨false, 0, 0, 0⟩ ∧ s.unk = ⟨false, 0, 0⟩ ∧
    (∀ k : Fin 80, s.readByte (c.fontBase + k.val) = c.font.get k) ∧
    ∀ a, (a < c.fontBase ∨ c.fontBase + 80 ≤ a) → s.readByte a = 0

/-- A ROM that fits is copied to 0x200 upward and nothing else changes. A load and a cycle each close the door: whatever
operations follow, short of Reset, LoadROM is refused; and after a failed load Cycle is refused too (R39, R151, R153, S10, U5;
decision D24, log entry 11). -/
def Obligations.LoadRomCopiesImage : Prop :=
  (∀ (p : Session) (bytes : List Byte), p.Inv → p.phase = .awaitingLoad → 0x200 + bytes.length ≤ p.machine.cfg.memSize →
    ∃ t, hostStep (.loadRom bytes) p = .next (⟨t, .closed⟩, .loaded) ∧ t = { p.machine with mem := t.mem } ∧
      (∀ k < bytes.length, t.readByte (0x200 + k) = (bytes[k]?).getD 0) ∧
      ∀ a, (a < 0x200 ∨ 0x200 + bytes.length ≤ a) → t.readByte a = p.machine.readByte a) ∧
  (∀ (op : HostOp) (p q : Session) (r : Reply) (ops : List HostOp) (u : Session) (bytes : List Byte),
    (op = .cycle ∨ ∃ image, op = .loadRom image) → hostStep op p = .next (q, r) →
    HostOp.reset ∉ ops → hostRun ops q = .next u → hostStep (.loadRom bytes) u = .refused .loadOutsideReset) ∧
  ∀ (p q : Session) (image : List Byte) (ops : List HostOp) (u : Session),
    hostStep (.loadRom image) p = .next (q, .romTooLarge) → HostOp.reset ∉ ops → hostRun ops q = .next u →
    hostStep .cycle u = .refused .loadFailed

/-- An over-long ROM is reported to the caller, and the machine is unchanged: FAULT is not set and memory is as it was (R126). -/
def Obligations.OverlongRomReportedMachineUnchanged : Prop :=
  ∀ (p : Session) (bytes : List Byte), p.phase = .awaitingLoad → p.machine.cfg.memSize < 0x200 + bytes.length →
    ∃ q, hostStep (.loadRom bytes) p = .next (q, .romTooLarge) ∧ q.machine = p.machine

/-- The host's query and key operations touch only KEY and DIRTY, and SetKey only its own latch (R19, R39, R134). -/
def Obligations.HostTouchesOnlyKeysAndDirty : Prop :=
  (∀ (op : HostOp) (p q : Session) (r : Reply), op ≠ .reset → op ≠ .cycle → (∀ bytes, op ≠ .loadRom bytes) →
    hostStep op p = .next (q, r) →
    q = { p with machine := { p.machine with key := q.machine.key, dirty := q.machine.dirty } }) ∧
  ∀ (k : Reg) (pressed : Bool) (p : Session),
    ∃ t, hostStep (.setKey k pressed) p = .next ({ p with machine := t }, .done) ∧ t = { p.machine with key := t.key } ∧
      ∀ j : Reg, t.keyPressed j.val = if j = k then pressed else p.machine.keyPressed j.val

/-- The pixel query answers FB[row][col] inside the grid and changes nothing; outside it is refused (R107; decision D1, log
entry 10). -/
def Obligations.PixelQueryReadsGrid : Prop :=
  ∀ (p : Session) (row col : Nat),
    (∀ (hr : row < 32) (hc : col < 64),
      hostStep (.getPixel row col) p = .next (p, .bit (p.machine.fb.pixel ⟨row, hr⟩ ⟨col, hc⟩))) ∧
    (32 ≤ row ∨ 64 ≤ col → hostStep (.getPixel row col) p = .refused (.pixelOutsideGrid row col))

/-- The dirty query and clear (R108): the query returns DIRTY, the clear sets it to 0 and does not touch FB, and a CLS or DRW
executed after a clear sets it again, a DRW with N = 0 and I above MEM_SIZE included (R35, which R106's pseudocode does not say,
log entry 9; decision D18, log entry 10). -/
def Obligations.DirtyQueryAndClear : Prop :=
  ∀ (p : Session) (s : State), s = p.machine →
    hostStep .dirty p = .next (p, .bit s.dirty) ∧
    hostStep .clearDirty p = .next ({ p with machine := { s with dirty := false } }, .done) ∧
    (∃ t, exec .cls { s with dirty := false } = .next t ∧ t.dirty = true) ∧
    ∀ (x y : Reg) (n : Nibble), (n = 0 ∨ s.dataAddr 0 + n.toNat ≤ s.cfg.memSize) →
      ∃ t, exec (.drwVxVyN x y n) { s with dirty := false } = .next t ∧ t.dirty = true

/-- A word placed for the next fetch is the word fetched, and only memory changes (R32, R41; the model's withFetchWord, log entry
13). -/
def Obligations.PlacedWordIsFetched : Prop :=
  ∀ (s : State) (w : Nat), Memory.wf s.cfg s.mem → s.pc.toNat + 1 < s.cfg.memSize →
    (s.withFetchWord 16 w).fetch = some (BitVec.ofNat 16 w) ∧
    s.withFetchWord 16 w = { s with mem := (s.withFetchWord 16 w).mem }

/-! ### Control transfer -/

/-- RET (R71): with return addresses held, SP falls by one, PC is the popped entry and nothing else changes; with none,
StackUnderflow. -/
def Obligations.RetPopsReturnAddress : Prop :=
  ∀ s : State,
    (∀ k : Fin 16, s.sp = k.val + 1 → exec .ret s = .next { s with sp := k.val, pc := s.stack.get k }) ∧
    (s.sp = 0 → raises (exec .ret s) s 3 0x00EE)

/-- JP addr and JP V0,addr (R72, R78): PC is exactly the target, and nothing else changes. -/
def Obligations.JumpsReplacePc : Prop :=
  ∀ (s : State) (nnn : Addr12),
    exec (.jpAddr nnn) s = .next { s with pc := BitVec.ofNat 16 nnn.toNat } ∧
    exec (.jpV0Addr nnn) s = .next { s with pc := BitVec.ofNat 16 (nnn.toNat + (s.getV 0).toNat) }

/-- CALL addr (R73): below 16 held addresses, pc0 + 2 is pushed at SP, SP grows by one and PC is the target; at 16,
StackOverflow. Nothing else changes; the stack is stated entry by entry. -/
def Obligations.CallPushesReturnAddress : Prop :=
  ∀ (s : State) (nnn : Addr12),
    (s.sp < 16 →
      ∃ t, exec (.callAddr nnn) s = .next t ∧
        (∀ k : Fin 16, t.stack.get k = if k.val = s.sp then s.pc + 2 else s.stack.get k) ∧
        t = { s with stack := t.stack, sp := s.sp + 1, pc := BitVec.ofNat 16 nnn.toNat }) ∧
    (s.sp = 16 → raises (exec (.callAddr nnn) s) s 2 (encode (.callAddr nnn)))

/-- CALL then RET comes back to the instruction after the CALL with the stack depth unchanged (R71, R73). -/
def Obligations.CallThenRetComesBack : Prop :=
  ∀ (s : State) (nnn : Addr12), s.sp < 16 →
    ∃ t u, exec (.callAddr nnn) s = .next t ∧ exec .ret t = .next u ∧ u.pc = s.pc + 2 ∧ u.sp = s.sp ∧
      u = { s with pc := u.pc, stack := u.stack }

/-- SE Vx,NN and SNE Vx,NN (R74, R75): 2 more is added to the advanced PC on equal, on not equal; nothing else changes. -/
def Obligations.SkipsOnByte : Prop :=
  ∀ (s : State) (x : Reg) (nn : Byte),
    exec (.seVxNN x nn) s = .next { s with pc := if s.getV x = nn then s.pc + 4 else s.pc + 2 } ∧
    exec (.sneVxNN x nn) s = .next { s with pc := if s.getV x = nn then s.pc + 2 else s.pc + 4 }

/-- SE Vx,Vy and SNE Vx,Vy (R76, R77): as for a byte; with X = Y the first always skips and the second never does. -/
def Obligations.SkipsOnRegisters : Prop :=
  ∀ (s : State) (x y : Reg),
    exec (.seVxVy x y) s = .next { s with pc := if s.getV x = s.getV y then s.pc + 4 else s.pc + 2 } ∧
    exec (.sneVxVy x y) s = .next { s with pc := if s.getV x = s.getV y then s.pc + 2 else s.pc + 4 } ∧
    exec (.seVxVy x x) s = .next { s with pc := s.pc + 4 } ∧ exec (.sneVxVy x x) s = .next { s with pc := s.pc + 2 }

/-! ### Register load and ALU -/

/-- LD Vx,NN (R81), its encoding 6XNN included: Vx is NN, VF is written only as X = 0xF, nothing else changes but PC. -/
def Obligations.LoadByteSetsRegister : Prop :=
  ∀ (s : State) (x : Reg) (nn : Byte),
    setsRegister (exec (.ldVxNN x nn) s) s x nn ∧ (encode (.ldVxNN x nn)).toNat = 0x6000 + 256 * x.val + nn.toNat

/-- ADD Vx,NN (R82), its encoding 7XNN included: Vx is (Vx + NN) mod 256, no carry is recorded, nothing else changes but PC. -/
def Obligations.AddByteWrapsWithoutCarry : Prop :=
  ∀ (s : State) (x : Reg) (nn : Byte),
    setsRegister (exec (.addVxNN x nn) s) s x (BitVec.ofNat 8 (((s.getV x).toNat + nn.toNat) % 256)) ∧
    (encode (.addVxNN x nn)).toNat = 0x7000 + 256 * x.val + nn.toNat

/-- LD, OR, AND and XOR of two registers (R83 to R86): the destination alone changes, VF unless it is the destination included. -/
def Obligations.CopyAndLogicSetRegister : Prop :=
  ∀ (s : State) (x y : Reg),
    setsRegister (exec (.ldVxVy x y) s) s x (s.getV y) ∧
    setsRegister (exec (.orVxVy x y) s) s x (s.getV x ||| s.getV y) ∧
    setsRegister (exec (.andVxVy x y) s) s x (s.getV x &&& s.getV y) ∧
    setsRegister (exec (.xorVxVy x y) s) s x (s.getV x ^^^ s.getV y)

/-- ADD, SUB and SUBN of two registers (R80, R87, R88, R90): the result modulo 256, and VF, written last, the carry or the
absence of a borrow (the order rests on decision D11, log entry 10). -/
def Obligations.AddAndSubtractSetCarryAndBorrow : Prop :=
  ∀ (s : State) (x y : Reg) (a b : Nat), a = (s.getV x).toNat → b = (s.getV y).toNat →
    setsRegisterAndFlag (exec (.addVxVy x y) s) s x (BitVec.ofNat 8 ((a + b) % 256)) (if 255 < a + b then 1 else 0) ∧
    setsRegisterAndFlag (exec (.subVxVy x y) s) s x (BitVec.ofNat 8 ((a + 256 - b) % 256)) (if b ≤ a then 1 else 0) ∧
    setsRegisterAndFlag (exec (.subnVxVy x y) s) s x (BitVec.ofNat 8 ((b + 256 - a) % 256)) (if a ≤ b then 1 else 0)

/-- SHR and SHL (R80, R89, R91): Vx halved or doubled modulo 256, VF, written last, the bit shifted out (decisions D11 and D12,
log entry 10). -/
def Obligations.ShiftsSetShiftedOutBit : Prop :=
  ∀ (s : State) (x : Reg) (a : Nat), a = (s.getV x).toNat →
    setsRegisterAndFlag (exec (.shrVx x) s) s x (BitVec.ofNat 8 (a / 2)) (BitVec.ofNat 8 (a % 2)) ∧
    setsRegisterAndFlag (exec (.shlVx x) s) s x (BitVec.ofNat 8 (2 * a % 256)) (BitVec.ofNat 8 (a / 128))

/-- RND Vx,NN (R92): Vx is the draw under the mask, whatever the draw is, so its bits outside NN are 0; the count of draws
advances; nothing else changes but PC (the free value, log entry 4). -/
def Obligations.RandomByteUnderMask : Prop :=
  ∀ (s : State) (x : Reg) (nn : Byte),
    ∃ t, exec (.rndVxNN x nn) s = .next t ∧
      (∀ r, t.getV r = if r = x then Config.freeRandomByte s.draws &&& nn else s.getV r) ∧
      (∀ k, nn.getLsbD k = false → (t.getV x).getLsbD k = false) ∧
      t = { s with v := t.v, pc := s.pc + 2, draws := s.draws + 1 }

/-- The six flag instructions leave VF at 0 or 1 on every execution, whatever X is (R11, R80; decision D11, log entry 10). -/
def Obligations.FlagWritersLeaveZeroOrOne : Prop :=
  ∀ (i : Instr) (s t : State), writesFlag i = true → s.running → exec i s = .next t → t.running →
    t.getV regVF = 0 ∨ t.getV regVF = 1

/-- A register changes only as a destination of the instruction, or as VF in the six flag instructions (R11, R26). -/
def Obligations.OnlyDestinationsAndFlagChange : Prop :=
  ∀ (i : Instr) (s t : State) (r : Reg), exec i s = .next t → isDestination i r = false →
    (writesFlag i = true → r ≠ regVF) → t.getV r = s.getV r

/-! ### Address register, loads and stores -/

/-- LD I,addr, ADD I,Vx and LD F,Vx (R95, R96, R97): the new I, modulo 65536; VF is not written and nothing else changes but PC;
with legal parameters LD F never wraps (decisions D13 and D14, log entry 10). -/
def Obligations.AddressRegisterLoads : Prop :=
  ∀ (s : State) (x : Reg) (nnn : Addr12),
    exec (.ldIAddr nnn) s = .next { s with i := BitVec.ofNat 16 nnn.toNat, pc := s.pc + 2 } ∧
    exec (.addIVx x) s =
      .next { s with i := BitVec.ofNat 16 ((s.i.toNat + (s.getV x).toNat) % 65536), pc := s.pc + 2 } ∧
    exec (.ldFVx x) s =
      .next { s with i := BitVec.ofNat 16 (s.cfg.fontBase + 5 * (s.getV x).toNat), pc := s.pc + 2 } ∧
    (s.cfg.wellFormed = true → s.cfg.fontBase + 5 * (s.getV x).toNat < 65536)

/-- LD B,Vx (R98): the three digits at I, I + 1, I + 2, every other byte and everything else but PC unchanged; past MEM_SIZE,
DataBound and nothing stored (decision D3, log entry 10). -/
def Obligations.StoreDecimalDigits : Prop :=
  ∀ (s : State) (x : Reg), Memory.wf s.cfg s.mem →
    (s.dataAddr 0 + 3 ≤ s.cfg.memSize →
      ∃ t, exec (.ldBVx x) s = .next t ∧ t = { s with mem := t.mem, pc := s.pc + 2 } ∧
        (t.readByte (s.dataAddr 0)).toNat = (s.getV x).toNat / 100 ∧
        (t.readByte (s.dataAddr 0 + 1)).toNat = (s.getV x).toNat / 10 % 10 ∧
        (t.readByte (s.dataAddr 0 + 2)).toNat = (s.getV x).toNat % 10 ∧
        ∀ a, (a < s.dataAddr 0 ∨ s.dataAddr 0 + 3 ≤ a) → t.readByte a = s.readByte a) ∧
    (s.cfg.memSize < s.dataAddr 0 + 3 → raises (exec (.ldBVx x) s) s 5 (encode (.ldBVx x)))

/-- LD [I],Vx (R99, R100): V0..VX at ascending addresses from I, every other byte and everything else but PC unchanged; past
MEM_SIZE, DataBound and nothing stored (decisions D3 and D16, log entry 10). -/
def Obligations.StoreRegisterBlock : Prop :=
  ∀ (s : State) (x : Reg), Memory.wf s.cfg s.mem →
    (s.dataAddr 0 + x.val + 1 ≤ s.cfg.memSize →
      ∃ t, exec (.ldMemVx x) s = .next t ∧ t = { s with mem := t.mem, pc := s.pc + 2 } ∧
        (∀ r ≤ x, t.readByte (s.dataAddr r.val) = s.getV r) ∧
        ∀ a, (a < s.dataAddr 0 ∨ s.dataAddr 0 + x.val + 1 ≤ a) → t.readByte a = s.readByte a) ∧
    (s.cfg.memSize < s.dataAddr 0 + x.val + 1 → raises (exec (.ldMemVx x) s) s 5 (encode (.ldMemVx x)))

/-- LD Vx,[I] (R99, R101): V0..VX from ascending addresses, the registers above and everything else but PC unchanged; past
MEM_SIZE, DataBound and nothing loaded (decisions D3 and D16, log entry 10). -/
def Obligations.LoadRegisterBlock : Prop :=
  ∀ (s : State) (x : Reg),
    (s.dataAddr 0 + x.val + 1 ≤ s.cfg.memSize →
      ∃ t, exec (.ldVxMem x) s = .next t ∧ t = { s with v := t.v, pc := s.pc + 2 } ∧
        ∀ r, t.getV r = if r ≤ x then s.readByte (s.dataAddr r.val) else s.getV r) ∧
    (s.cfg.memSize < s.dataAddr 0 + x.val + 1 → raises (exec (.ldVxMem x) s) s 5 (encode (.ldVxMem x)))

/-- What LD [I],Vx stored LD Vx,[I] loads back, whatever the registers hold in between, because I is kept (R99 to R101; decision
D16, log entry 10). -/
def Obligations.BlockStoreThenLoadRestores : Prop :=
  ∀ (s : State) (x : Reg) (v' : Vector Byte 16), Memory.wf s.cfg s.mem → s.dataAddr 0 + x.val + 1 ≤ s.cfg.memSize →
    ∃ t u, exec (.ldMemVx x) s = .next t ∧ exec (.ldVxMem x) { t with v := v' } = .next u ∧
      (∀ r ≤ x, u.getV r = s.getV r) ∧ u.i = s.i

/-- Every byte of memory outside the bytes the instruction stores to, at the address its meaning stores to, reads as before; an
instruction that stores nothing changes no byte (R30, R36). -/
def Obligations.BytesOutsideTheStoreKept : Prop :=
  ∀ (i : Instr) (s t : State) (a : Nat), Memory.wf s.cfg s.mem → exec i s = .next t →
    (a < s.dataAddr 0 ∨ s.dataAddr 0 + storedLength i ≤ a) → t.readByte a = s.readByte a

/-- A stored word is seen by the fetch of the very next cycle, its high byte at the lower address (R32, R41; decision D25, log
entry 10). -/
def Obligations.StoredWordIsFetchedNext : Prop :=
  ∀ (s : State) (x : Reg), Memory.wf s.cfg s.mem → 1 ≤ x.val → s.dataAddr 0 = s.pc.toNat + 2 →
    s.dataAddr 0 + x.val + 1 ≤ s.cfg.memSize →
    ∃ t, exec (.ldMemVx x) s = .next t ∧ t.fetch = some (wordOfBytes (s.getV 0) (s.getV 1))

/-! ### Display -/

/-- CLS (R105): every pixel 0, DIRTY 1, nothing else changed but PC (decision D18, log entry 10). -/
def Obligations.ClearScreen : Prop :=
  ∀ s : State,
    ∃ t, exec .cls s = .next t ∧ (∀ row col, t.fb.pixel row col = false) ∧
      t = { s with fb := t.fb, dirty := true, pc := s.pc + 2 }

/-- DRW Vx,Vy,N (R106): each pixel is inverted iff the sprite has a 1 bit on it, wrapped on both axes; VF is 1 iff such a pixel was
on; DIRTY is 1; nothing else changes but PC. Past MEM_SIZE, DataBound and nothing drawn. Bit order, D3, D18: log entries 7,
9, 10. -/
def Obligations.DrawXorsSprite : Prop :=
  ∀ (s : State) (x y : Reg) (n : Nibble),
    (n = 0 ∨ s.dataAddr 0 + n.toNat ≤ s.cfg.memSize →
      ∃ t, exec (.drwVxVyN x y n) s = .next t ∧
        (∀ row col, t.fb.pixel row col = (s.fb.pixel row col ^^ s.spriteBit x y n row col)) ∧
        (t.getV regVF = 1 ↔ ∃ row col, s.fb.pixel row col = true ∧ s.spriteBit x y n row col = true) ∧
        (t.getV regVF = 0 ∨ t.getV regVF = 1) ∧ (∀ r, r ≠ regVF → t.getV r = s.getV r) ∧
        t = { s with v := t.v, fb := t.fb, dirty := true, pc := s.pc + 2 }) ∧
    (n ≠ 0 → s.cfg.memSize < s.dataAddr 0 + n.toNat → raises (exec (.drwVxVyN x y n) s) s 5 (encode (.drwVxVyN x y n)))

/-- Drawing the same sprite twice at the same place restores the framebuffer; the second draw gives VF = 1 iff some 1 bit of the
sprite lay on a pixel that was off at the start (R106; log entry 15). The bit order is log entry 7; N = 0 with I above MEM_SIZE
is log entry 9 (R35). X or Y = VF is left out, since the first draw changes the place of the second; DrawXorsSprite has one draw
of those forms. -/
def Obligations.DrawTwiceRestores : Prop :=
  ∀ (s : State) (x y : Reg) (n : Nibble), x ≠ regVF → y ≠ regVF →
    (n = 0 ∨ s.dataAddr 0 + n.toNat ≤ s.cfg.memSize) →
    ∃ t u, exec (.drwVxVyN x y n) s = .next t ∧ exec (.drwVxVyN x y n) t = .next u ∧ u.fb = s.fb ∧
      (u.getV regVF = 1 ↔ ∃ row col, s.fb.pixel row col = false ∧ s.spriteBit x y n row col = true)

/-! ### Keypad and timers -/

/-- SKP and SKNP (R110, R111): the key named by the value of Vx decides the skip; a value above 15 raises KeypadIndex (decision
D20, log entry 10). Nothing else changes. -/
def Obligations.SkipsOnKey : Prop :=
  ∀ (s : State) (x : Reg),
    ((s.getV x).toNat ≤ 15 →
      exec (.skpVx x) s =
        .next { s with pc := if s.key.getLsbD (s.getV x).toNat then s.pc + 4 else s.pc + 2 } ∧
      exec (.sknpVx x) s =
        .next { s with pc := if s.key.getLsbD (s.getV x).toNat then s.pc + 2 else s.pc + 4 }) ∧
    (15 < (s.getV x).toNat →
      raises (exec (.skpVx x) s) s 6 (encode (.skpVx x)) ∧ raises (exec (.sknpVx x) s) s 6 (encode (.sknpVx x)))

/-- LD Vx,K (R113): with no key down nothing changes, PC included; with one down Vx gets the index of a pressed key, the lowest
where KEY_PICK is the default (decision D19, log entry 3). -/
def Obligations.WaitForKey : Prop :=
  ∀ (s : State) (x : Reg),
    (s.key = 0 → exec (.ldVxK x) s = .next s) ∧
    (s.key ≠ 0 → ∃ k : Nat, k < 16 ∧ s.key.getLsbD k = true ∧
      setsRegister (exec (.ldVxK x) s) s x (BitVec.ofNat 8 k) ∧
      (s.cfg.keyPick = [] → ∀ j < k, s.key.getLsbD j = false))

/-- While no key is pressed LD Vx,K is repeated for ever: after any number of cycles only the timers and TICK have moved, and the
machine has not halted (R113, R64). -/
def Obligations.WaitRepeatsWhileNoKey : Prop :=
  ∀ (s : State) (x : Reg), s.running → s.key = 0 → s.pc.toNat + 1 < s.cfg.memSize →
    decodeWord (s.readWord s.pc.toNat) = .ok (.ldVxK x) →
    ∀ n : Nat, ∃ t : State, runCycles n s = .next t ∧ t = { s with tick := t.tick, dt := t.dt, st := t.st }

/-- LD Vx,DT, LD DT,Vx and LD ST,Vx (R112, R114, R115): the register or timer loaded, nothing else changed but PC. -/
def Obligations.TimerLoads : Prop :=
  ∀ (s : State) (x : Reg),
    setsRegister (exec (.ldVxDT x) s) s x s.dt ∧
    exec (.ldDTVx x) s = .next { s with dt := s.getV x, pc := s.pc + 2 } ∧
    exec (.ldSTVx x) s = .next { s with st := s.getV x, pc := s.pc + 2 }

/-- The tick of the same cycle follows the load of DT: with TICK at 1 the value just written loses one, else it stays; TICK is not
reset by the write (R64, R114; decision D21, log entry 10). -/
def Obligations.LoadedTimerTicksInSameCycle : Prop :=
  ∀ (s : State) (x : Reg), s.running → s.fetch = some (encode (.ldDTVx x)) → 1 ≤ s.tick →
    ∃ t, step s = .next t ∧ t.pc = s.pc + 2 ∧
      (t.dt.toNat = if s.tick = 1 then (s.getV x).toNat - 1 else (s.getV x).toNat) ∧
      t.tick = if s.tick = 1 then s.cfg.tickPeriod else s.tick - 1

/-- DT and ST (R20): only LD DT,Vx and LD ST,Vx set them in an instruction, LD Vx,DT reads DT, no instruction reads ST, the host
sees sound_active = (ST != 0), and both are 0 after reset. -/
def Obligations.TimersSetOnlyByTheirLoads : Prop :=
  (∀ (i : Instr) (s t : State), exec i s = .next t →
    ((∀ x, i ≠ .ldDTVx x) → t.dt = s.dt) ∧ ((∀ x, i ≠ .ldSTVx x) → t.st = s.st)) ∧
  (∀ (x : Reg) (s : State), (∃ t, exec (.ldDTVx x) s = .next t ∧ t.dt = s.getV x) ∧
    (∃ t, exec (.ldSTVx x) s = .next t ∧ t.st = s.getV x) ∧ ∃ t, exec (.ldVxDT x) s = .next t ∧ t.getV x = s.dt) ∧
  (∀ (i : Instr) (s t : State) (b : Byte), exec i s = .next t →
    ∃ t', exec i { s with st := b } = .next t' ∧ t' = { t with st := t'.st }) ∧
  (∀ p : Session, hostStep .soundActive p = .next (p, .bit (decide (p.machine.st ≠ 0)))) ∧
  ∀ c : Config, (State.resetWith c).dt = 0 ∧ (State.resetWith c).st = 0

/-! ### Whole-machine rules -/

/-- The access table of R26: an instruction that does not raise leaves every field outside its row unchanged; RND also advances the
model's own count of draws (log entry 4). -/
def Obligations.WritesOnlyItsAccessRow : Prop :=
  ∀ (i : Instr) (s t : State) (f : StateField), s.running → exec i s = .next t → t.running → f ∉ writesField i → f.same s t

/-- No cycle writes a key latch or a parameter (R19, R4; log entry 1). -/
def Obligations.StepKeepsKeysAndParameters : Prop :=
  ∀ s t : State, step s = .next t → t.key = s.key ∧ t.cfg = s.cfg

/-- Stale stack entries are not observable: two machines that differ only in entries at SP and above still differ only there
after any number of cycles (R14; SP at most 16, by the invariant). -/
def Obligations.StaleEntriesUnobservable : Prop :=
  ∀ (n : Nat) (s s' t t' : State), s.sp ≤ 16 → s.sameButStale s' → runCycles n s = .next t → runCycles n s' = .next t' →
    t.sameButStale t'

/-- ST, DIRTY and UNK are outputs: two machines that differ only in them still differ only in them after any number of cycles
(R18, R20, R24). -/
def Obligations.OutputsUnobservable : Prop :=
  ∀ (n : Nat) (s s' t t' : State), s.sameButOutputs s' → runCycles n s = .next t → runCycles n s' = .next t' →
    t.sameButOutputs t'
end

