-- ==== Sys2Proof/Laws/State.lean ====
section
/-! SUPPORT. One lemma per field and per update of State, so that no proof unfolds a record update. -/

namespace Sys2Proof.Machine

/-! ### advance -/

@[simp] theorem State.advance_cfg (s : State) : (s.advance).cfg = s.cfg := rfl
@[simp] theorem State.advance_v (s : State) : (s.advance).v = s.v := rfl
@[simp] theorem State.advance_i (s : State) : (s.advance).i = s.i := rfl
@[simp] theorem State.advance_pc (s : State) : (s.advance).pc = s.pc + 2 := rfl
@[simp] theorem State.advance_stack (s : State) : (s.advance).stack = s.stack := rfl
@[simp] theorem State.advance_sp (s : State) : (s.advance).sp = s.sp := rfl
@[simp] theorem State.advance_mem (s : State) : (s.advance).mem = s.mem := rfl
@[simp] theorem State.advance_fb (s : State) : (s.advance).fb = s.fb := rfl
@[simp] theorem State.advance_dirty (s : State) : (s.advance).dirty = s.dirty := rfl
@[simp] theorem State.advance_key (s : State) : (s.advance).key = s.key := rfl
@[simp] theorem State.advance_dt (s : State) : (s.advance).dt = s.dt := rfl
@[simp] theorem State.advance_st (s : State) : (s.advance).st = s.st := rfl
@[simp] theorem State.advance_tick (s : State) : (s.advance).tick = s.tick := rfl
@[simp] theorem State.advance_fault (s : State) : (s.advance).fault = s.fault := rfl
@[simp] theorem State.advance_unk (s : State) : (s.advance).unk = s.unk := rfl
@[simp] theorem State.advance_draws (s : State) : (s.advance).draws = s.draws := rfl

/-! ### jump -/

@[simp] theorem State.jump_cfg (s : State) (a : Word) : (s.jump a).cfg = s.cfg := rfl
@[simp] theorem State.jump_v (s : State) (a : Word) : (s.jump a).v = s.v := rfl
@[simp] theorem State.jump_i (s : State) (a : Word) : (s.jump a).i = s.i := rfl
@[simp] theorem State.jump_pc (s : State) (a : Word) : (s.jump a).pc = a := rfl
@[simp] theorem State.jump_stack (s : State) (a : Word) : (s.jump a).stack = s.stack := rfl
@[simp] theorem State.jump_sp (s : State) (a : Word) : (s.jump a).sp = s.sp := rfl
@[simp] theorem State.jump_mem (s : State) (a : Word) : (s.jump a).mem = s.mem := rfl
@[simp] theorem State.jump_fb (s : State) (a : Word) : (s.jump a).fb = s.fb := rfl
@[simp] theorem State.jump_dirty (s : State) (a : Word) : (s.jump a).dirty = s.dirty := rfl
@[simp] theorem State.jump_key (s : State) (a : Word) : (s.jump a).key = s.key := rfl
@[simp] theorem State.jump_dt (s : State) (a : Word) : (s.jump a).dt = s.dt := rfl
@[simp] theorem State.jump_st (s : State) (a : Word) : (s.jump a).st = s.st := rfl
@[simp] theorem State.jump_tick (s : State) (a : Word) : (s.jump a).tick = s.tick := rfl
@[simp] theorem State.jump_fault (s : State) (a : Word) : (s.jump a).fault = s.fault := rfl
@[simp] theorem State.jump_unk (s : State) (a : Word) : (s.jump a).unk = s.unk := rfl
@[simp] theorem State.jump_draws (s : State) (a : Word) : (s.jump a).draws = s.draws := rfl

/-! ### skipIf -/

@[simp] theorem State.skipIf_cfg (s : State) (b : Bool) : (s.skipIf b).cfg = s.cfg := by cases b <;> rfl
@[simp] theorem State.skipIf_v (s : State) (b : Bool) : (s.skipIf b).v = s.v := by cases b <;> rfl
@[simp] theorem State.skipIf_i (s : State) (b : Bool) : (s.skipIf b).i = s.i := by cases b <;> rfl
@[simp] theorem State.skipIf_stack (s : State) (b : Bool) : (s.skipIf b).stack = s.stack := by cases b <;> rfl
@[simp] theorem State.skipIf_sp (s : State) (b : Bool) : (s.skipIf b).sp = s.sp := by cases b <;> rfl
@[simp] theorem State.skipIf_mem (s : State) (b : Bool) : (s.skipIf b).mem = s.mem := by cases b <;> rfl
@[simp] theorem State.skipIf_fb (s : State) (b : Bool) : (s.skipIf b).fb = s.fb := by cases b <;> rfl
@[simp] theorem State.skipIf_dirty (s : State) (b : Bool) : (s.skipIf b).dirty = s.dirty := by cases b <;> rfl
@[simp] theorem State.skipIf_key (s : State) (b : Bool) : (s.skipIf b).key = s.key := by cases b <;> rfl
@[simp] theorem State.skipIf_dt (s : State) (b : Bool) : (s.skipIf b).dt = s.dt := by cases b <;> rfl
@[simp] theorem State.skipIf_st (s : State) (b : Bool) : (s.skipIf b).st = s.st := by cases b <;> rfl
@[simp] theorem State.skipIf_tick (s : State) (b : Bool) : (s.skipIf b).tick = s.tick := by cases b <;> rfl
@[simp] theorem State.skipIf_fault (s : State) (b : Bool) : (s.skipIf b).fault = s.fault := by cases b <;> rfl
@[simp] theorem State.skipIf_unk (s : State) (b : Bool) : (s.skipIf b).unk = s.unk := by cases b <;> rfl
@[simp] theorem State.skipIf_draws (s : State) (b : Bool) : (s.skipIf b).draws = s.draws := by cases b <;> rfl

@[simp] theorem State.skipIf_pc (s : State) (b : Bool) : (s.skipIf b).pc = if b then s.pc + 2 else s.pc := by
  cases b <;> rfl

/-! ### setV -/

@[simp] theorem State.setV_cfg (s : State) (x : Reg) (b : Byte) : (s.setV x b).cfg = s.cfg := rfl
@[simp] theorem State.setV_i (s : State) (x : Reg) (b : Byte) : (s.setV x b).i = s.i := rfl
@[simp] theorem State.setV_pc (s : State) (x : Reg) (b : Byte) : (s.setV x b).pc = s.pc := rfl
@[simp] theorem State.setV_stack (s : State) (x : Reg) (b : Byte) : (s.setV x b).stack = s.stack := rfl
@[simp] theorem State.setV_sp (s : State) (x : Reg) (b : Byte) : (s.setV x b).sp = s.sp := rfl
@[simp] theorem State.setV_mem (s : State) (x : Reg) (b : Byte) : (s.setV x b).mem = s.mem := rfl
@[simp] theorem State.setV_fb (s : State) (x : Reg) (b : Byte) : (s.setV x b).fb = s.fb := rfl
@[simp] theorem State.setV_dirty (s : State) (x : Reg) (b : Byte) : (s.setV x b).dirty = s.dirty := rfl
@[simp] theorem State.setV_key (s : State) (x : Reg) (b : Byte) : (s.setV x b).key = s.key := rfl
@[simp] theorem State.setV_dt (s : State) (x : Reg) (b : Byte) : (s.setV x b).dt = s.dt := rfl
@[simp] theorem State.setV_st (s : State) (x : Reg) (b : Byte) : (s.setV x b).st = s.st := rfl
@[simp] theorem State.setV_tick (s : State) (x : Reg) (b : Byte) : (s.setV x b).tick = s.tick := rfl
@[simp] theorem State.setV_fault (s : State) (x : Reg) (b : Byte) : (s.setV x b).fault = s.fault := rfl
@[simp] theorem State.setV_unk (s : State) (x : Reg) (b : Byte) : (s.setV x b).unk = s.unk := rfl
@[simp] theorem State.setV_draws (s : State) (x : Reg) (b : Byte) : (s.setV x b).draws = s.draws := rfl

/-! ### setResultThenFlag -/

@[simp] theorem State.setResultThenFlag_cfg (s : State) (x : Reg) (b f : Byte) : (s.setResultThenFlag x b f).cfg = s.cfg := rfl
@[simp] theorem State.setResultThenFlag_i (s : State) (x : Reg) (b f : Byte) : (s.setResultThenFlag x b f).i = s.i := rfl
@[simp] theorem State.setResultThenFlag_pc (s : State) (x : Reg) (b f : Byte) : (s.setResultThenFlag x b f).pc = s.pc := rfl
@[simp] theorem State.setResultThenFlag_stack (s : State) (x : Reg) (b f : Byte) : (s.setResultThenFlag x b f).stack = s.stack := rfl
@[simp] theorem State.setResultThenFlag_sp (s : State) (x : Reg) (b f : Byte) : (s.setResultThenFlag x b f).sp = s.sp := rfl
@[simp] theorem State.setResultThenFlag_mem (s : State) (x : Reg) (b f : Byte) : (s.setResultThenFlag x b f).mem = s.mem := rfl
@[simp] theorem State.setResultThenFlag_fb (s : State) (x : Reg) (b f : Byte) : (s.setResultThenFlag x b f).fb = s.fb := rfl
@[simp] theorem State.setResultThenFlag_dirty (s : State) (x : Reg) (b f : Byte) : (s.setResultThenFlag x b f).dirty = s.dirty := rfl
@[simp] theorem State.setResultThenFlag_key (s : State) (x : Reg) (b f : Byte) : (s.setResultThenFlag x b f).key = s.key := rfl
@[simp] theorem State.setResultThenFlag_dt (s : State) (x : Reg) (b f : Byte) : (s.setResultThenFlag x b f).dt = s.dt := rfl
@[simp] theorem State.setResultThenFlag_st (s : State) (x : Reg) (b f : Byte) : (s.setResultThenFlag x b f).st = s.st := rfl
@[simp] theorem State.setResultThenFlag_tick (s : State) (x : Reg) (b f : Byte) : (s.setResultThenFlag x b f).tick = s.tick := rfl
@[simp] theorem State.setResultThenFlag_fault (s : State) (x : Reg) (b f : Byte) : (s.setResultThenFlag x b f).fault = s.fault := rfl
@[simp] theorem State.setResultThenFlag_unk (s : State) (x : Reg) (b f : Byte) : (s.setResultThenFlag x b f).unk = s.unk := rfl
@[simp] theorem State.setResultThenFlag_draws (s : State) (x : Reg) (b f : Byte) : (s.setResultThenFlag x b f).draws = s.draws := rfl

/-! ### writeByte -/

@[simp] theorem State.writeByte_cfg (s : State) (a : Nat) (b : Byte) : (s.writeByte a b).cfg = s.cfg := rfl
@[simp] theorem State.writeByte_v (s : State) (a : Nat) (b : Byte) : (s.writeByte a b).v = s.v := rfl
@[simp] theorem State.writeByte_i (s : State) (a : Nat) (b : Byte) : (s.writeByte a b).i = s.i := rfl
@[simp] theorem State.writeByte_pc (s : State) (a : Nat) (b : Byte) : (s.writeByte a b).pc = s.pc := rfl
@[simp] theorem State.writeByte_stack (s : State) (a : Nat) (b : Byte) : (s.writeByte a b).stack = s.stack := rfl
@[simp] theorem State.writeByte_sp (s : State) (a : Nat) (b : Byte) : (s.writeByte a b).sp = s.sp := rfl
@[simp] theorem State.writeByte_mem (s : State) (a : Nat) (b : Byte) : (s.writeByte a b).mem = Memory.write s.cfg s.mem a b := rfl
@[simp] theorem State.writeByte_fb (s : State) (a : Nat) (b : Byte) : (s.writeByte a b).fb = s.fb := rfl
@[simp] theorem State.writeByte_dirty (s : State) (a : Nat) (b : Byte) : (s.writeByte a b).dirty = s.dirty := rfl
@[simp] theorem State.writeByte_key (s : State) (a : Nat) (b : Byte) : (s.writeByte a b).key = s.key := rfl
@[simp] theorem State.writeByte_dt (s : State) (a : Nat) (b : Byte) : (s.writeByte a b).dt = s.dt := rfl
@[simp] theorem State.writeByte_st (s : State) (a : Nat) (b : Byte) : (s.writeByte a b).st = s.st := rfl
@[simp] theorem State.writeByte_tick (s : State) (a : Nat) (b : Byte) : (s.writeByte a b).tick = s.tick := rfl
@[simp] theorem State.writeByte_fault (s : State) (a : Nat) (b : Byte) : (s.writeByte a b).fault = s.fault := rfl
@[simp] theorem State.writeByte_unk (s : State) (a : Nat) (b : Byte) : (s.writeByte a b).unk = s.unk := rfl
@[simp] theorem State.writeByte_draws (s : State) (a : Nat) (b : Byte) : (s.writeByte a b).draws = s.draws := rfl

/-- Storing bytes changes memory only. -/
theorem State.writeBytes_eq (s : State) (a : Nat) (bs : List Byte) :
    s.writeBytes a bs = { s with mem := (s.writeBytes a bs).mem } := by
  induction bs generalizing s a with
  | nil => rfl
  | cons b bs ih => exact (ih (s.writeByte a b) (a + 1))

/-! ### writeBytes -/

@[simp] theorem State.writeBytes_cfg (s : State) (a : Nat) (bs : List Byte) : (s.writeBytes a bs).cfg = s.cfg := by rw [s.writeBytes_eq]
@[simp] theorem State.writeBytes_v (s : State) (a : Nat) (bs : List Byte) : (s.writeBytes a bs).v = s.v := by rw [s.writeBytes_eq]
@[simp] theorem State.writeBytes_i (s : State) (a : Nat) (bs : List Byte) : (s.writeBytes a bs).i = s.i := by rw [s.writeBytes_eq]
@[simp] theorem State.writeBytes_pc (s : State) (a : Nat) (bs : List Byte) : (s.writeBytes a bs).pc = s.pc := by rw [s.writeBytes_eq]
@[simp] theorem State.writeBytes_stack (s : State) (a : Nat) (bs : List Byte) : (s.writeBytes a bs).stack = s.stack := by rw [s.writeBytes_eq]
@[simp] theorem State.writeBytes_sp (s : State) (a : Nat) (bs : List Byte) : (s.writeBytes a bs).sp = s.sp := by rw [s.writeBytes_eq]
@[simp] theorem State.writeBytes_fb (s : State) (a : Nat) (bs : List Byte) : (s.writeBytes a bs).fb = s.fb := by rw [s.writeBytes_eq]
@[simp] theorem State.writeBytes_dirty (s : State) (a : Nat) (bs : List Byte) : (s.writeBytes a bs).dirty = s.dirty := by rw [s.writeBytes_eq]
@[simp] theorem State.writeBytes_key (s : State) (a : Nat) (bs : List Byte) : (s.writeBytes a bs).key = s.key := by rw [s.writeBytes_eq]
@[simp] theorem State.writeBytes_dt (s : State) (a : Nat) (bs : List Byte) : (s.writeBytes a bs).dt = s.dt := by rw [s.writeBytes_eq]
@[simp] theorem State.writeBytes_st (s : State) (a : Nat) (bs : List Byte) : (s.writeBytes a bs).st = s.st := by rw [s.writeBytes_eq]
@[simp] theorem State.writeBytes_tick (s : State) (a : Nat) (bs : List Byte) : (s.writeBytes a bs).tick = s.tick := by rw [s.writeBytes_eq]
@[simp] theorem State.writeBytes_fault (s : State) (a : Nat) (bs : List Byte) : (s.writeBytes a bs).fault = s.fault := by rw [s.writeBytes_eq]
@[simp] theorem State.writeBytes_unk (s : State) (a : Nat) (bs : List Byte) : (s.writeBytes a bs).unk = s.unk := by rw [s.writeBytes_eq]
@[simp] theorem State.writeBytes_draws (s : State) (a : Nat) (bs : List Byte) : (s.writeBytes a bs).draws = s.draws := by rw [s.writeBytes_eq]

/-! ### push -/

@[simp] theorem State.push_cfg (s : State) (a : Word) : (s.push a).cfg = s.cfg := rfl
@[simp] theorem State.push_v (s : State) (a : Word) : (s.push a).v = s.v := rfl
@[simp] theorem State.push_i (s : State) (a : Word) : (s.push a).i = s.i := rfl
@[simp] theorem State.push_pc (s : State) (a : Word) : (s.push a).pc = s.pc := rfl
@[simp] theorem State.push_stack (s : State) (a : Word) : (s.push a).stack = s.stack.setIfInBounds s.sp a := rfl
@[simp] theorem State.push_sp (s : State) (a : Word) : (s.push a).sp = s.sp + 1 := rfl
@[simp] theorem State.push_mem (s : State) (a : Word) : (s.push a).mem = s.mem := rfl
@[simp] theorem State.push_fb (s : State) (a : Word) : (s.push a).fb = s.fb := rfl
@[simp] theorem State.push_dirty (s : State) (a : Word) : (s.push a).dirty = s.dirty := rfl
@[simp] theorem State.push_key (s : State) (a : Word) : (s.push a).key = s.key := rfl
@[simp] theorem State.push_dt (s : State) (a : Word) : (s.push a).dt = s.dt := rfl
@[simp] theorem State.push_st (s : State) (a : Word) : (s.push a).st = s.st := rfl
@[simp] theorem State.push_tick (s : State) (a : Word) : (s.push a).tick = s.tick := rfl
@[simp] theorem State.push_fault (s : State) (a : Word) : (s.push a).fault = s.fault := rfl
@[simp] theorem State.push_unk (s : State) (a : Word) : (s.push a).unk = s.unk := rfl
@[simp] theorem State.push_draws (s : State) (a : Word) : (s.push a).draws = s.draws := rfl

/-! ### pop -/

@[simp] theorem State.pop_cfg (s : State) : (s.pop).cfg = s.cfg := rfl
@[simp] theorem State.pop_v (s : State) : (s.pop).v = s.v := rfl
@[simp] theorem State.pop_i (s : State) : (s.pop).i = s.i := rfl
@[simp] theorem State.pop_pc (s : State) : (s.pop).pc = s.pc := rfl
@[simp] theorem State.pop_stack (s : State) : (s.pop).stack = s.stack := rfl
@[simp] theorem State.pop_sp (s : State) : (s.pop).sp = s.sp - 1 := rfl
@[simp] theorem State.pop_mem (s : State) : (s.pop).mem = s.mem := rfl
@[simp] theorem State.pop_fb (s : State) : (s.pop).fb = s.fb := rfl
@[simp] theorem State.pop_dirty (s : State) : (s.pop).dirty = s.dirty := rfl
@[simp] theorem State.pop_key (s : State) : (s.pop).key = s.key := rfl
@[simp] theorem State.pop_dt (s : State) : (s.pop).dt = s.dt := rfl
@[simp] theorem State.pop_st (s : State) : (s.pop).st = s.st := rfl
@[simp] theorem State.pop_tick (s : State) : (s.pop).tick = s.tick := rfl
@[simp] theorem State.pop_fault (s : State) : (s.pop).fault = s.fault := rfl
@[simp] theorem State.pop_unk (s : State) : (s.pop).unk = s.unk := rfl
@[simp] theorem State.pop_draws (s : State) : (s.pop).draws = s.draws := rfl

/-! ### loadRegs -/

@[simp] theorem State.loadRegs_cfg (s : State) (x : Reg) : (s.loadRegs x).cfg = s.cfg := rfl
@[simp] theorem State.loadRegs_i (s : State) (x : Reg) : (s.loadRegs x).i = s.i := rfl
@[simp] theorem State.loadRegs_pc (s : State) (x : Reg) : (s.loadRegs x).pc = s.pc := rfl
@[simp] theorem State.loadRegs_stack (s : State) (x : Reg) : (s.loadRegs x).stack = s.stack := rfl
@[simp] theorem State.loadRegs_sp (s : State) (x : Reg) : (s.loadRegs x).sp = s.sp := rfl
@[simp] theorem State.loadRegs_mem (s : State) (x : Reg) : (s.loadRegs x).mem = s.mem := rfl
@[simp] theorem State.loadRegs_fb (s : State) (x : Reg) : (s.loadRegs x).fb = s.fb := rfl
@[simp] theorem State.loadRegs_dirty (s : State) (x : Reg) : (s.loadRegs x).dirty = s.dirty := rfl
@[simp] theorem State.loadRegs_key (s : State) (x : Reg) : (s.loadRegs x).key = s.key := rfl
@[simp] theorem State.loadRegs_dt (s : State) (x : Reg) : (s.loadRegs x).dt = s.dt := rfl
@[simp] theorem State.loadRegs_st (s : State) (x : Reg) : (s.loadRegs x).st = s.st := rfl
@[simp] theorem State.loadRegs_tick (s : State) (x : Reg) : (s.loadRegs x).tick = s.tick := rfl
@[simp] theorem State.loadRegs_fault (s : State) (x : Reg) : (s.loadRegs x).fault = s.fault := rfl
@[simp] theorem State.loadRegs_unk (s : State) (x : Reg) : (s.loadRegs x).unk = s.unk := rfl
@[simp] theorem State.loadRegs_draws (s : State) (x : Reg) : (s.loadRegs x).draws = s.draws := rfl

/-! ### timerTick -/

@[simp] theorem State.timerTick_cfg (s : State) : (s.timerTick).cfg = s.cfg := by unfold State.timerTick; split <;> rfl
@[simp] theorem State.timerTick_v (s : State) : (s.timerTick).v = s.v := by unfold State.timerTick; split <;> rfl
@[simp] theorem State.timerTick_i (s : State) : (s.timerTick).i = s.i := by unfold State.timerTick; split <;> rfl
@[simp] theorem State.timerTick_pc (s : State) : (s.timerTick).pc = s.pc := by unfold State.timerTick; split <;> rfl
@[simp] theorem State.timerTick_stack (s : State) : (s.timerTick).stack = s.stack := by unfold State.timerTick; split <;> rfl
@[simp] theorem State.timerTick_sp (s : State) : (s.timerTick).sp = s.sp := by unfold State.timerTick; split <;> rfl
@[simp] theorem State.timerTick_mem (s : State) : (s.timerTick).mem = s.mem := by unfold State.timerTick; split <;> rfl
@[simp] theorem State.timerTick_fb (s : State) : (s.timerTick).fb = s.fb := by unfold State.timerTick; split <;> rfl
@[simp] theorem State.timerTick_dirty (s : State) : (s.timerTick).dirty = s.dirty := by unfold State.timerTick; split <;> rfl
@[simp] theorem State.timerTick_key (s : State) : (s.timerTick).key = s.key := by unfold State.timerTick; split <;> rfl
@[simp] theorem State.timerTick_fault (s : State) : (s.timerTick).fault = s.fault := by unfold State.timerTick; split <;> rfl
@[simp] theorem State.timerTick_unk (s : State) : (s.timerTick).unk = s.unk := by unfold State.timerTick; split <;> rfl
@[simp] theorem State.timerTick_draws (s : State) : (s.timerTick).draws = s.draws := by unfold State.timerTick; split <;> rfl

end Sys2Proof.Machine
end

