-- ==== Sys2Proof/Laws/Memory.lean ====
section
/-! SUPPORT. The laws of memory: a read after a write (20_memory.md rule R36), and that every memory operation keeps the
canonical form. -/

namespace Sys2Proof.Machine

variable {c : Config} {m : List Host.Cell} {a a' : Nat} {b : Byte}

/-- Memory.wf of a list with a head: the head is below every later address. -/
theorem Memory.wf_cons {p : Host.Cell} :
    Memory.wf c (p :: m) ↔
      (∀ q ∈ m, p.1 < q.1) ∧ (p.1 < c.memSize ∧ p.2 ≠ resetByte c p.1) ∧ Memory.wf c m := by
  simp only [Memory.wf, List.pairwise_cons, List.forall_mem_cons]
  tauto

theorem Memory.wf_nil : Memory.wf c [] := by simp [Memory.wf]

/-- Reading a list with a head. -/
theorem Memory.read_cons {p : Host.Cell} :
    Memory.read c (p :: m) a = if a = p.1 then p.2 else Memory.read c m a := by
  obtain ⟨k, v⟩ := p
  simp only [Memory.read, List.lookup_cons]
  by_cases h : a = k
  · simp [h]
  · simp [h, beq_eq_false_iff_ne.2 h]

/-- An address no entry lists reads as after reset. -/
theorem Memory.read_unlisted (h : ∀ p ∈ m, p.1 ≠ a) : Memory.read c m a = resetByte c a := by
  induction m with
  | nil => rfl
  | cons p m ih =>
    rw [Memory.read_cons, if_neg (Ne.symm (h p (by simp))), ih fun q hq => h q (by simp [hq])]

theorem Memory.read_insert (h : m.Pairwise fun p q => p.1 < q.1) :
    Memory.read c (Memory.insert a b m) a' = if a' = a then b else Memory.read c m a' := by
  induction m with
  | nil => simp [Memory.insert, Memory.read_cons]
  | cons p m ih =>
    obtain ⟨hp, hm⟩ := List.pairwise_cons.1 h
    simp only [Memory.insert]
    split_ifs <;> simp_all [Memory.read_cons]

theorem Memory.read_erase : Memory.read c (Memory.erase a m) a' = if a' = a then resetByte c a else Memory.read c m a' := by
  induction m with
  | nil => simp only [Memory.erase, Memory.read]; split_ifs <;> simp_all
  | cons p m ih =>
    by_cases h : p.1 = a
    · have : Memory.erase a (p :: m) = Memory.erase a m := by simp [Memory.erase, h]
      rw [this, ih, Memory.read_cons]
      split_ifs <;> simp_all
    · have : Memory.erase a (p :: m) = p :: Memory.erase a m := by simp [Memory.erase, h]
      rw [this, Memory.read_cons, ih, Memory.read_cons]
      split_ifs <;> simp_all

/-- A read after a write gives the byte written, and a write leaves every other byte alone. -/
theorem Memory.read_write (h : m.Pairwise fun p q => p.1 < q.1) :
    Memory.read c (Memory.write c m a b) a' = if a' = a then b else Memory.read c m a' := by
  unfold Memory.write
  split
  · rename_i hb; rw [Memory.read_erase, hb]
  · exact Memory.read_insert h

theorem Memory.mem_insert {q : Host.Cell} (h : q ∈ Memory.insert a b m) : q = (a, b) ∨ q ∈ m := by
  induction m with
  | nil => simpa [Memory.insert] using h
  | cons p m ih =>
    simp only [Memory.insert] at h
    split_ifs at h <;> simp only [List.mem_cons] at h ⊢ <;> tauto

theorem Memory.wf_insert (hm : Memory.wf c m) (ha : a < c.memSize) (hb : b ≠ resetByte c a) :
    Memory.wf c (Memory.insert a b m) := by
  induction m with
  | nil => exact Memory.wf_cons.2 ⟨by simp, ⟨ha, hb⟩, hm⟩
  | cons p m ih =>
    obtain ⟨hlt, hp, hw⟩ := Memory.wf_cons.1 hm
    simp only [Memory.insert]
    split_ifs with h1 h2
    · refine Memory.wf_cons.2 ⟨?_, ⟨ha, hb⟩, hm⟩
      simp only [List.forall_mem_cons]
      exact ⟨h1, fun q hq => h1.trans (hlt q hq)⟩
    · exact Memory.wf_cons.2 ⟨fun q hq => by simpa [h2] using hlt q hq, ⟨ha, hb⟩, hw⟩
    · refine Memory.wf_cons.2 ⟨fun q hq => ?_, hp, ih hw⟩
      rcases Memory.mem_insert hq with rfl | hq
      · simp only; omega
      · exact hlt q hq

theorem Memory.wf_erase (hm : Memory.wf c m) : Memory.wf c (Memory.erase a m) :=
  ⟨hm.1.filter _, fun p hp => hm.2 p (List.mem_of_mem_filter hp)⟩

/-- A write inside memory keeps the canonical form. -/
theorem Memory.wf_write (hm : Memory.wf c m) (ha : a < c.memSize) : Memory.wf c (Memory.write c m a b) := by
  unfold Memory.write
  split
  · exact Memory.wf_erase hm
  · exact Memory.wf_insert hm ha ‹_›

/-- Canonical memories that read alike are equal data. -/
theorem Memory.ext_of_wf {m m' : List Host.Cell} (hm : Memory.wf c m) (hm' : Memory.wf c m')
    (h : ∀ a, Memory.read c m a = Memory.read c m' a) : m = m' := by
  induction m generalizing m' with
  | nil =>
    cases m' with
    | nil => rfl
    | cons q m' =>
      have := h q.1
      rw [Memory.read_cons, if_pos rfl] at this
      exact absurd this.symm (Memory.wf_cons.1 hm').2.1.2
  | cons p m ih =>
    obtain ⟨hlt, hp, hw⟩ := Memory.wf_cons.1 hm
    cases m' with
    | nil =>
      have := h p.1
      rw [Memory.read_cons, if_pos rfl] at this
      exact absurd this hp.2
    | cons q m' =>
      obtain ⟨hlt', hq, hw'⟩ := Memory.wf_cons.1 hm'
      have unlisted : ∀ {n : List Host.Cell} {x y : Nat}, (∀ r ∈ n, x < r.1) → y ≤ x →
          Memory.read c n y = resetByte c y := fun hn hy =>
        Memory.read_unlisted fun r hr => by have := hn r hr; omega
      have hpq : p.1 = q.1 := by
        rcases Nat.lt_trichotomy p.1 q.1 with hl | he | hg
        · have := h p.1
          rw [Memory.read_cons, if_pos rfl, Memory.read_cons, if_neg (by omega), unlisted hlt' (by omega)] at this
          exact absurd this hp.2
        · exact he
        · have := h q.1
          rw [Memory.read_cons, if_neg (by omega), unlisted hlt (by omega), Memory.read_cons, if_pos rfl] at this
          exact absurd this.symm hq.2
      have hv : p.2 = q.2 := by
        have := h p.1
        rwa [Memory.read_cons, if_pos rfl, Memory.read_cons, if_pos hpq] at this
      have hpe : p = q := Prod.ext hpq hv
      subst hpe
      refine congrArg _ (ih hw hw' fun a => ?_)
      by_cases ha : a = p.1
      · subst ha; rw [unlisted hlt (Nat.le_refl _), unlisted hlt' (Nat.le_refl _)]
      · have := h a
        rwa [Memory.read_cons, if_neg ha, Memory.read_cons, if_neg ha] at this

/-! ### The same over State -/

theorem State.readByte_writeByte (s : State) (hw : Memory.wf s.cfg s.mem) :
    (s.writeByte a b).readByte a' = if a' = a then b else s.readByte a' :=
  Memory.read_write hw.1

theorem State.wf_writeByte (s : State) (hw : Memory.wf s.cfg s.mem) (ha : a < s.cfg.memSize) :
    Memory.wf s.cfg (s.writeByte a b).mem :=
  Memory.wf_write hw ha

/-- Storing bytes at ascending addresses keeps the canonical form. -/
theorem State.wf_writeBytes (s : State) (bs : List Byte) (hw : Memory.wf s.cfg s.mem)
    (ha : a + bs.length ≤ s.cfg.memSize) : Memory.wf s.cfg (s.writeBytes a bs).mem := by
  induction bs generalizing s a with
  | nil => exact hw
  | cons b bs ih =>
    simp only [List.length_cons] at ha
    exact ih (s.writeByte a b) (s.wf_writeByte hw (by omega)) (by simp only [State.writeByte_cfg]; omega)

/-- What memory holds after storing bytes at ascending addresses (R32). -/
theorem State.readByte_writeBytes (s : State) (bs : List Byte) (hw : Memory.wf s.cfg s.mem)
    (ha : a + bs.length ≤ s.cfg.memSize) :
    (s.writeBytes a bs).readByte a' =
      if a ≤ a' then (bs[a' - a]?).getD (s.readByte a') else s.readByte a' := by
  induction bs generalizing s a with
  | nil => simp [State.writeBytes]
  | cons b bs ih =>
    simp only [List.length_cons] at ha
    rw [State.writeBytes, ih (s.writeByte a b) (s.wf_writeByte hw (by omega)) (by simp only [State.writeByte_cfg]; omega),
      State.readByte_writeByte s hw]
    rcases Nat.lt_trichotomy a' a with h | h | h
    · simp [show ¬a + 1 ≤ a' by omega, show ¬a ≤ a' by omega, show a' ≠ a by omega]
    · subst h; simp
    · obtain ⟨k, rfl⟩ : ∃ k, a' = a + (k + 1) := ⟨a' - a - 1, by omega⟩
      simp [show a + 1 ≤ a + (k + 1) by omega, show a + (k + 1) - (a + 1) = k by omega]

@[simp] theorem State.readByte_advance (s : State) : s.advance.readByte a = s.readByte a := rfl

@[simp] theorem State.readByte_setV (s : State) (x : Reg) (v : Byte) : (s.setV x v).readByte a = s.readByte a := rfl

end Sys2Proof.Machine
end

