-- ==== Sys2Proof/Laws/Registers.lean ====
section
/-! SUPPORT. What the register, program-counter and stack operations do (10_state.md rules R10 to R15). -/

namespace Sys2Proof.Machine

@[simp] theorem State.getV_advance (s : State) (r : Reg) : s.advance.getV r = s.getV r := rfl

@[simp] theorem State.getV_jump (s : State) (a : Word) (r : Reg) : (s.jump a).getV r = s.getV r := rfl

@[simp] theorem State.getV_skipIf (s : State) (b : Bool) (r : Reg) : (s.skipIf b).getV r = s.getV r := by
  cases b <;> rfl

@[simp] theorem State.getV_writeBytes (s : State) (a : Nat) (bs : List Byte) (r : Reg) :
    (s.writeBytes a bs).getV r = s.getV r := by
  simp [State.getV]

/-- A register write changes the register it names and no other. -/
theorem State.getV_setV (s : State) (x r : Reg) (b : Byte) : (s.setV x b).getV r = if r = x then b else s.getV r := by
  simp [State.getV, State.setV, Vector.get_eq_getElem, Vector.getElem_set, Fin.ext_iff, eq_comm]

/-- The flag is the last write: VF always ends as the flag (R80). -/
theorem State.getV_setResultThenFlag (s : State) (x r : Reg) (b f : Byte) :
    (s.setResultThenFlag x b f).getV r = if r = regVF then f else if r = x then b else s.getV r := by
  simp only [State.setResultThenFlag, State.getV_setV]

/-- Two register files that read alike are equal. -/
theorem State.v_ext {s t : State} (h : ∀ r, s.getV r = t.getV r) : s.v = t.v := by
  apply Vector.ext
  intro k hk
  simpa [State.getV, Vector.get_eq_getElem] using h ⟨k, hk⟩

/-- A block load sets V0..VX from ascending addresses and keeps the rest (R101). -/
theorem State.getV_loadRegs (s : State) (x r : Reg) :
    (s.loadRegs x).getV r = if r ≤ x then s.readByte (s.i.toNat + r.val) else s.getV r := by
  simp [State.loadRegs, State.getV, Vector.get_eq_getElem, State.dataAddr]

/-- A push changes the entry at SP and no other (R15). -/
theorem State.stackAt_push (s : State) (a : Word) (k : Nat) (h : s.sp < 16) :
    (s.push a).stackAt k = if k = s.sp then a else s.stackAt k := by
  simp only [State.stackAt, State.push, Vector.getElem?_setIfInBounds]
  split <;> rename_i hk <;> simp_all [eq_comm]

theorem mem_regsUpTo (x r : Reg) : r ∈ regsUpTo x ↔ r ≤ x := by
  revert x r; decide

@[simp] theorem length_regsUpTo (x : Reg) : (regsUpTo x).length = x.val + 1 := by
  revert x; decide

theorem getElem?_regsUpTo (x r : Reg) (h : r ≤ x) : (regsUpTo x)[r.val]? = some r := by
  revert x r; decide

end Sys2Proof.Machine
end

