-- ==== Sys2Proof/Laws/Cycle.lean ====
section
/-! SUPPORT. What fetch, raise, the unknown opcode, the tick and the end of a cycle do, and the one inversion lemma of step
(40_cycle.md rule R60, 60_exceptions.md rules R122, R131). -/

namespace Sys2Proof.Machine

variable {s t : State}

theorem State.fetch_some {w : Word} :
    s.fetch = some w ↔ s.pc.toNat + 1 < s.cfg.memSize ∧ s.readWord s.pc.toNat = w := by
  simp [State.fetch]

theorem State.fetch_none : s.fetch = none ↔ s.cfg.memSize ≤ s.pc.toNat + 1 := by
  simp [State.fetch]

/-- A raise changes FAULT and nothing else (R122). -/
theorem raiseFault_next {c : FaultCause} {w : Word} :
    raiseFault s c w = .next t ↔ t = { s with fault := ⟨true, c.code, w, s.pc⟩ } := by
  simp [raiseFault, eq_comm]

/-- The two outcomes of an unknown opcode (R63). -/
theorem unknownOpcode_next {w : Word} :
    unknownOpcode s w = .next t ↔
      (s.cfg.unknownPolicy = .abort ∧ t = { s with fault := ⟨true, 4, w, s.pc⟩ }) ∨
      (s.cfg.unknownPolicy = .skip ∧ t = { s.advance with unk := ⟨true, w, s.pc⟩ }) := by
  unfold unknownOpcode
  split <;> rename_i h <;> simp [h, raiseFault, FaultCause.code, eq_comm]

/-- The end of a cycle that answers a next state (R64). -/
theorem endCycle_next {o : Host.Outcome State Fault Refusal} :
    endCycle o = .next t ↔
      ∃ u, o = .next u ∧ ((u.fault.valid = true ∧ t = u) ∨ (u.fault.valid = false ∧ t = u.timerTick)) := by
  cases o with
  | next u =>
    simp only [endCycle, Host.Outcome.next.injEq, exists_eq_left']
    cases u.fault.valid <;> simp [eq_comm]
  | fault r => simp [endCycle]
  | refused r => simp [endCycle]

/-- Everything one step can do (R60): nothing when halted, FetchBound, the decoded instruction, or the unknown opcode, the last
two followed by the tick unless they raised. -/
theorem step_cases (h : step s = .next t) :
    (s.fault.valid = true ∧ t = s) ∨
    (s.fault.valid = false ∧ s.fetch = none ∧ t = { s with fault := ⟨true, 1, 0, s.pc⟩ }) ∨
    (s.fault.valid = false ∧ ∃ w i u, s.fetch = some w ∧ decodeWord w = .ok i ∧ exec i s = .next u ∧
      ((u.fault.valid = true ∧ t = u) ∨ (u.fault.valid = false ∧ t = u.timerTick))) ∨
    (s.fault.valid = false ∧ ∃ w e u, s.fetch = some w ∧ decodeWord w = .error e ∧ unknownOpcode s w = .next u ∧
      ((u.fault.valid = true ∧ t = u) ∨ (u.fault.valid = false ∧ t = u.timerTick))) := by
  unfold step at h
  split at h
  · rename_i hv
    exact .inl ⟨hv, by simpa [eq_comm] using h⟩
  · rename_i hv
    have hv : s.fault.valid = false := by simpa using hv
    cases hf : s.fetch with
    | none =>
      simp only [hf] at h
      obtain ⟨u, hu, ht⟩ := endCycle_next.1 h
      rw [raiseFault_next] at hu
      subst hu
      exact .inr (.inl ⟨hv, rfl, by simpa [FaultCause.code] using ht⟩)
    | some w =>
      simp only [hf] at h
      cases hd : decodeWord w with
      | ok i =>
        simp only [hd] at h
        obtain ⟨u, hu, ht⟩ := endCycle_next.1 h
        exact .inr (.inr (.inl ⟨hv, w, i, u, rfl, hd, hu, ht⟩))
      | error e =>
        simp only [hd] at h
        obtain ⟨u, hu, ht⟩ := endCycle_next.1 h
        exact .inr (.inr (.inr ⟨hv, w, e, u, rfl, hd, hu, ht⟩))

/-- The tick (R131), TICK being at least 1. -/
theorem State.timerTick_of_one (h : s.tick = 1) :
    s.timerTick = { s with tick := s.cfg.tickPeriod, dt := countDown s.dt, st := countDown s.st } := by
  simp [State.timerTick, h]

theorem State.timerTick_of_lt (h : 1 < s.tick) : s.timerTick = { s with tick := s.tick - 1 } := by
  rw [State.timerTick, if_neg (by omega)]

/-- A count down is one less, stopping at 0 (R131). -/
theorem countDown_toNat (b : Byte) : (countDown b).toNat = b.toNat - 1 := by
  unfold countDown
  split
  · rename_i h; subst h; rfl
  · rename_i h
    have : b.toNat ≠ 0 := fun h0 => h (BitVec.eq_of_toNat_eq (by simpa using h0))
    have := b.isLt
    rw [BitVec.toNat_sub]
    simp
    omega

theorem runCycles_succ (n : Nat) (h : step s = .next t) : runCycles (n + 1) s = runCycles n t := by
  simp [runCycles, h]

/-- The host's run of the core is a run of cycles. -/
theorem core_run_eq (n : Nat) (s : State) : core.run n s = runCycles n s := by
  induction n generalizing s with
  | zero => rfl
  | succ n ih =>
    refine (Host.Core.run.eq_2 core s n).trans ?_
    cases h : step s with
    | next t =>
      have h' : core.step s = .next t := h
      simp only [h', runCycles, h]
      exact ih t
    | fault r =>
      have h' : core.step s = .fault r := h
      simp only [h', runCycles, h]
      rfl
    | refused r =>
      have h' : core.step s = .refused r := h
      simp only [h', runCycles, h]
      rfl

end Sys2Proof.Machine
end

