-- ==== Sys2Proof/Laws/Decode.lean ====
section
/-! SUPPORT. The fields of an encoded word (30_encoding.md rules R46, R47): reading a format's field back gives what was put in. -/

namespace Sys2Proof

variable (fam : BitVec 4) (x y : Reg) (n : Nibble) (nn : Byte) (nnn : Addr12)

@[simp] theorem fieldFam_formatA : fieldFam (formatA fam nnn) = fam :=
  (BitVec.extractLsb'_append_eq_of_le (by decide)).trans (by simp)

@[simp] theorem fieldNNN_formatA : fieldNNN (formatA fam nnn) = nnn :=
  (BitVec.extractLsb'_append_eq_of_add_le (by decide)).trans (by simp)

@[simp] theorem fieldFam_formatXB : fieldFam (formatXB fam x nn) = fam :=
  (BitVec.extractLsb'_append_eq_of_le (by decide)).trans
    ((BitVec.extractLsb'_append_eq_of_le (by decide)).trans (by simp))

@[simp] theorem fieldX_formatXB : fieldX (formatXB fam x nn) = x :=
  congrArg BitVec.toFin ((BitVec.extractLsb'_append_eq_of_le (by decide)).trans
    ((BitVec.extractLsb'_append_eq_of_add_le (by decide)).trans (by simp)))

@[simp] theorem fieldNN_formatXB : fieldNN (formatXB fam x nn) = nn :=
  (BitVec.extractLsb'_append_eq_of_add_le (by decide)).trans (by simp)

@[simp] theorem fieldFam_formatXYN : fieldFam (formatXYN fam x y n) = fam :=
  (BitVec.extractLsb'_append_eq_of_le (by decide)).trans
    ((BitVec.extractLsb'_append_eq_of_le (by decide)).trans
      ((BitVec.extractLsb'_append_eq_of_le (by decide)).trans (by simp)))

@[simp] theorem fieldX_formatXYN : fieldX (formatXYN fam x y n) = x :=
  congrArg BitVec.toFin ((BitVec.extractLsb'_append_eq_of_le (by decide)).trans
    ((BitVec.extractLsb'_append_eq_of_le (by decide)).trans
      ((BitVec.extractLsb'_append_eq_of_add_le (by decide)).trans (by simp))))

@[simp] theorem fieldY_formatXYN : fieldY (formatXYN fam x y n) = y :=
  congrArg BitVec.toFin ((BitVec.extractLsb'_append_eq_of_le (by decide)).trans
    ((BitVec.extractLsb'_append_eq_of_add_le (by decide)).trans (by simp)))

@[simp] theorem fieldN_formatXYN : fieldN (formatXYN fam x y n) = n :=
  (BitVec.extractLsb'_append_eq_of_add_le (by decide)).trans (by simp)

/-- The word two bytes form is big-endian (R32). -/
theorem wordOfBytes_toNat (hi lo : Byte) : (wordOfBytes hi lo).toNat = 256 * hi.toNat + lo.toNat := by
  have h : (wordOfBytes hi lo).toNat = hi.toNat <<< 8 ||| lo.toNat := BitVec.toNat_append hi lo
  rw [h, ← Nat.shiftLeft_add_eq_or_of_lt lo.isLt, Nat.shiftLeft_eq]
  omega

/-- A word's two bytes form the word. -/
@[simp] theorem wordOfBytes_high_low (w : Word) : wordOfBytes (highByte w) (lowByte w) = w := by
  apply BitVec.eq_of_toNat_eq
  have := w.isLt
  rw [wordOfBytes_toNat]
  simp only [highByte, lowByte, BitVec.extractLsb'_toNat, Nat.shiftRight_eq_div_pow]
  omega

end Sys2Proof
end

