-- ==== Sys2Proof/Laws/Display.lean ====
section
/-! SUPPORT. What the framebuffer operations do (10_state.md rule R17, 44_display.md rule R106). -/

namespace Sys2Proof.Machine

/-- Two framebuffers with the same pixels are equal. -/
theorem Framebuffer.ext_pixel {f g : Framebuffer} (h : ∀ row col, f.pixel row col = g.pixel row col) : f = g := by
  apply Vector.ext
  intro r hr
  apply Vector.ext
  intro k hk
  simpa [Framebuffer.pixel, Vector.get_eq_getElem] using h ⟨r, hr⟩ ⟨k, hk⟩

@[simp] theorem Framebuffer.pixel_blank (row : Fin 32) (col : Fin 64) : Framebuffer.blank.pixel row col = false := by
  simp [Framebuffer.pixel, Framebuffer.blank, Vector.get_eq_getElem]

/-- Flipping inverts one pixel and no other. -/
theorem Framebuffer.pixel_flip (fb : Framebuffer) (row row' : Fin 32) (col col' : Fin 64) :
    (fb.flip row col).pixel row' col' =
      if row' = row ∧ col' = col then !fb.pixel row col else fb.pixel row' col' := by
  simp only [Framebuffer.pixel, Framebuffer.flip, Vector.get_eq_getElem, Vector.getElem_set, Fin.ext_iff]
  by_cases h : row.val = row'.val
  · have : row = row' := Fin.ext h
    subst this
    by_cases h2 : col.val = col'.val
    · have : col = col' := Fin.ext h2
      subst this; simp
    · simp [h2, Ne.symm h2]
  · simp [h, Ne.symm h]

/-- Drawing one pixel: the collision bit notes whether it was on, then it is inverted. -/
theorem drawPixel_eq (acc : Framebuffer × Bool) (row : Fin 32) (col : Fin 64) :
    drawPixel acc row col = (acc.1.flip row col, acc.2 || acc.1.pixel row col) := rfl

/-- How far right of `cx` a column lies, modulo 64. -/
def colOffset (cx : Nat) (col : Fin 64) : Nat := (col.val + 64 - cx % 64) % 64

/-- How far below `cy` a row lies, modulo 32. -/
def rowOffset (cy : Nat) (row : Fin 32) : Nat := (row.val + 32 - cy % 32) % 32

theorem colOffset_eq_iff (cx k : Nat) (hk : k < 64) (col : Fin 64) :
    colOffset cx col = k ↔ col = Fin.ofNat 64 (cx + k) := by
  have := col.isLt
  simp only [colOffset, Fin.ext_iff, Fin.ofNat]
  omega

theorem rowOffset_eq_iff (cy k : Nat) (hk : k < 32) (row : Fin 32) :
    rowOffset cy row = k ↔ row = Fin.ofNat 32 (cy + k) := by
  have := row.isLt
  simp only [rowOffset, Fin.ext_iff, Fin.ofNat]
  omega

/-- The first `k` columns of a sprite row have a 1 bit on this column. -/
def rowCovers (bits : Byte) (cx k : Nat) (col : Fin 64) : Bool :=
  decide (colOffset cx col < k) && bits.getLsbD (7 - colOffset cx col)

/-- The first `n` rows of a sprite have a 1 bit on this pixel. -/
def spriteCovers (sprite : Nat → Byte) (n cx cy : Nat) (row : Fin 32) (col : Fin 64) : Bool :=
  decide (rowOffset cy row < n) && rowCovers (sprite (rowOffset cy row)) cx 8 col

theorem rowCovers_succ (bits : Byte) (cx k : Nat) (hk : k < 64) (col : Fin 64) :
    rowCovers bits cx (k + 1) col =
      (rowCovers bits cx k col ^^ (decide (col = Fin.ofNat 64 (cx + k)) && bits.getLsbD (7 - k))) := by
  simp only [rowCovers, ← colOffset_eq_iff cx k hk]
  rcases Nat.lt_trichotomy (colOffset cx col) k with h | h | h
  · simp [show colOffset cx col < k + 1 by omega, h, show colOffset cx col ≠ k by omega]
  · simp [h]
  · simp [show ¬colOffset cx col < k + 1 by omega, show ¬colOffset cx col < k by omega,
      show colOffset cx col ≠ k by omega]

theorem rowCovers_new (bits : Byte) (cx k : Nat) (hk : k < 64) :
    rowCovers bits cx k (Fin.ofNat 64 (cx + k)) = false := by
  have := (colOffset_eq_iff cx k hk (Fin.ofNat 64 (cx + k))).2 rfl
  rw [rowCovers, this]; simp

/-- The first `k` columns of a sprite row: each pixel they cover is inverted, and the collision bit notes whether one was on. -/
theorem drawRow_prefix (bits : Byte) (row : Fin 32) (cx : Nat) (acc : Framebuffer × Bool) (k : Nat) (hk : k ≤ 8) :
    let f := (List.range k).foldl
      (fun acc c => if bits.getLsbD (7 - c) then drawPixel acc row (Fin.ofNat 64 (cx + c)) else acc) acc
    (∀ row' col', f.1.pixel row' col' =
      (acc.1.pixel row' col' ^^ (decide (row' = row) && rowCovers bits cx k col'))) ∧
    (f.2 = true ↔ acc.2 = true ∨ ∃ col, acc.1.pixel row col = true ∧ rowCovers bits cx k col = true) := by
  induction k with
  | zero => simp [rowCovers]
  | succ k ih =>
    obtain ⟨ihp, ihh⟩ := ih (by omega)
    simp only [List.range_succ, List.foldl_append, List.foldl_cons, List.foldl_nil] at ihp ihh ⊢
    set g := (List.range k).foldl
      (fun acc c => if bits.getLsbD (7 - c) then drawPixel acc row (Fin.ofNat 64 (cx + c)) else acc) acc
    have hsucc := rowCovers_succ bits cx k (by omega)
    have hnew := rowCovers_new bits cx k (by omega)
    by_cases hb : bits.getLsbD (7 - k) = true
    · rw [if_pos hb, drawPixel_eq]
      constructor
      · intro row' col'
        rw [Framebuffer.pixel_flip, hsucc, hb]
        by_cases h : row' = row ∧ col' = Fin.ofNat 64 (cx + k)
        · obtain ⟨rfl, rfl⟩ := h
          simp [ihp]
        · rw [if_neg h, ihp]
          by_cases h1 : row' = row
          · have h2 : ¬col' = Fin.ofNat 64 (cx + k) := fun h2 => h ⟨h1, h2⟩
            simp only [h2, decide_false, Bool.false_and, Bool.xor_false]
          · simp [h1]
      · have hp : g.1.pixel row (Fin.ofNat 64 (cx + k)) = acc.1.pixel row (Fin.ofNat 64 (cx + k)) := by
          rw [ihp, hnew]; simp
        rw [Bool.or_eq_true, ihh, hp, or_assoc]
        refine or_congr_right ⟨?_, ?_⟩
        · rintro (⟨col, h1, h2⟩ | h1)
          · refine ⟨col, h1, ?_⟩
            have h3 : ¬col = Fin.ofNat 64 (cx + k) := fun h3 => by rw [h3, hnew] at h2; cases h2
            rw [hsucc, h2, decide_eq_false h3]; rfl
          · exact ⟨_, h1, by rw [hsucc, hnew, hb]; simp⟩
        · rintro ⟨col, h1, h2⟩
          by_cases h3 : col = Fin.ofNat 64 (cx + k)
          · exact .inr (h3 ▸ h1)
          · refine .inl ⟨col, h1, ?_⟩
            rw [hsucc, decide_eq_false h3] at h2
            simpa using h2
    · have hb : bits.getLsbD (7 - k) = false := by simpa using hb
      have hsame : ∀ col, rowCovers bits cx (k + 1) col = rowCovers bits cx k col := fun col => by
        rw [hsucc, hb, Bool.and_false, Bool.xor_false]
      rw [if_neg (by simp [hb])]
      simp only [hsame]
      exact ⟨ihp, ihh⟩

/-- One sprite row (R106). -/
theorem drawRow_spec (bits : Byte) (row : Fin 32) (cx : Nat) (acc : Framebuffer × Bool) :
    (∀ row' col', (drawRow bits row cx acc).1.pixel row' col' =
      (acc.1.pixel row' col' ^^ (decide (row' = row) && rowCovers bits cx 8 col'))) ∧
    ((drawRow bits row cx acc).2 = true ↔
      acc.2 = true ∨ ∃ col, acc.1.pixel row col = true ∧ rowCovers bits cx 8 col = true) :=
  drawRow_prefix bits row cx acc 8 (by omega)

theorem spriteCovers_succ (sprite : Nat → Byte) (n cx cy : Nat) (hn : n < 32) (row : Fin 32) (col : Fin 64) :
    spriteCovers sprite (n + 1) cx cy row col =
      (spriteCovers sprite n cx cy row col ^^
        (decide (row = Fin.ofNat 32 (cy + n)) && rowCovers (sprite n) cx 8 col)) := by
  simp only [spriteCovers, ← rowOffset_eq_iff cy n hn]
  rcases Nat.lt_trichotomy (rowOffset cy row) n with h | h | h
  · simp [show rowOffset cy row < n + 1 by omega, h, show rowOffset cy row ≠ n by omega]
  · simp [h]
  · simp [show ¬rowOffset cy row < n + 1 by omega, show ¬rowOffset cy row < n by omega,
      show rowOffset cy row ≠ n by omega]

theorem spriteCovers_new (sprite : Nat → Byte) (n cx cy : Nat) (hn : n < 32) (col : Fin 64) :
    spriteCovers sprite n cx cy (Fin.ofNat 32 (cy + n)) col = false := by
  have := (rowOffset_eq_iff cy n hn (Fin.ofNat 32 (cy + n))).2 rfl
  rw [spriteCovers, this]; simp

/-- A sprite of fewer than 32 rows: each pixel under a 1 bit is inverted once, and the collision bit notes whether one was on
(R106). -/
theorem drawSprite_spec (sprite : Nat → Byte) (n cx cy : Nat) (fb : Framebuffer) (hn : n ≤ 31) :
    (∀ row col, (drawSprite sprite n cx cy fb).1.pixel row col =
      (fb.pixel row col ^^ spriteCovers sprite n cx cy row col)) ∧
    ((drawSprite sprite n cx cy fb).2 = true ↔
      ∃ row col, fb.pixel row col = true ∧ spriteCovers sprite n cx cy row col = true) := by
  induction n with
  | zero => simp [drawSprite, spriteCovers]
  | succ n ih =>
    obtain ⟨ihp, ihh⟩ := ih (by omega)
    have hsucc := spriteCovers_succ sprite n cx cy (by omega)
    have hnew := spriteCovers_new sprite n cx cy (by omega)
    have hstep : drawSprite sprite (n + 1) cx cy fb =
        drawRow (sprite n) (Fin.ofNat 32 (cy + n)) cx (drawSprite sprite n cx cy fb) := by
      simp only [drawSprite, List.range_succ, List.foldl_append, List.foldl_cons, List.foldl_nil]
    obtain ⟨hp, hh⟩ := drawRow_spec (sprite n) (Fin.ofNat 32 (cy + n)) cx (drawSprite sprite n cx cy fb)
    rw [hstep]
    constructor
    · intro row col
      rw [hp, ihp, hsucc, Bool.xor_assoc]
    · rw [hh, ihh]
      constructor
      · rintro (⟨row, col, h1, h2⟩ | ⟨col, h1, h2⟩)
        · refine ⟨row, col, h1, ?_⟩
          have h3 : ¬row = Fin.ofNat 32 (cy + n) := fun h3 => by rw [h3, hnew] at h2; cases h2
          rw [hsucc, h2, decide_eq_false h3]; rfl
        · refine ⟨_, col, ?_, by rw [hsucc, hnew, h2]; simp⟩
          rwa [ihp, hnew, Bool.xor_false] at h1
      · rintro ⟨row, col, h1, h2⟩
        by_cases h3 : row = Fin.ofNat 32 (cy + n)
        · subst h3
          refine .inr ⟨col, ?_, ?_⟩
          · rwa [ihp, hnew, Bool.xor_false]
          · rw [hsucc, hnew] at h2
            simpa using h2
        · refine .inl ⟨row, col, h1, ?_⟩
          rw [hsucc, decide_eq_false h3] at h2
          simpa using h2

end Sys2Proof.Machine
end

