-- ==== Sys2Proof/Laws/HostPort.lean ====
section
/-! SUPPORT. HostPort: what LoadROM, Cycle and any other host operation can do to a session. -/

namespace Sys2Proof.Machine

variable {p q : Session} {bytes : List Byte} {r : Session × Reply}

@[simp] theorem Session.start_machine (c : Config) : (Session.start c).machine = State.resetWith c := rfl
@[simp] theorem Session.start_phase (c : Config) : (Session.start c).phase = .awaitingLoad := rfl

/-- LoadROM answers only while a load is awaited: an over-long image changes no state, a fitting one is copied. -/
theorem loadRom_next : loadRom bytes p = .next r ↔ p.phase = .awaitingLoad ∧
    ((p.machine.cfg.memSize < 0x200 + bytes.length ∧ r = (⟨p.machine, .failed⟩, .romTooLarge)) ∨
     (0x200 + bytes.length ≤ p.machine.cfg.memSize ∧ r = (⟨p.machine.writeBytes 0x200 bytes, .closed⟩, .loaded))) := by
  rcases hp : p.phase <;> simp only [loadRom, hp, reduceCtorEq, false_and, true_and]
  split
  · constructor
    · intro h; cases h; exact .inl ⟨‹_›, rfl⟩
    · rintro (⟨_, rfl⟩ | ⟨h, _⟩)
      · rfl
      · omega
  · constructor
    · intro h; cases h; exact .inr ⟨by omega, rfl⟩
    · rintro (⟨h, _⟩ | ⟨_, rfl⟩)
      · contradiction
      · rfl

/-- LoadROM is refused unless a load is awaited. -/
theorem loadRom_refused (h : p.phase ≠ .awaitingLoad) : loadRom bytes p = .refused .loadOutsideReset := by
  rcases hp : p.phase <;> simp_all [loadRom]

/-- A cycle steps the machine and closes the door to LoadROM. -/
theorem cycleOp_next : cycleOp p = .next r ↔
    p.phase ≠ .failed ∧ ∃ t, step p.machine = .next t ∧ r = (⟨t, .closed⟩, .done) := by
  by_cases hp : p.phase = .failed
  · simp [cycleOp, hp]
  · rcases hs : step p.machine <;> simp [cycleOp, hp, hs, eq_comm]

/-- Once a ROM was loaded, a cycle has run or a load has failed, only Reset changes the phase. -/
theorem hostStep_phase {op : HostOp} {a : Reply} (hop : op ≠ .reset) (hp : p.phase ≠ .awaitingLoad)
    (h : hostStep op p = .next (q, a)) : q.phase = p.phase := by
  cases op <;> simp only [hostStep] at h
  case reset => exact absurd rfl hop
  case loadRom bytes => rw [loadRom_refused hp] at h; cases h
  case cycle =>
    obtain ⟨hf, t, _, h⟩ := cycleOp_next.1 h
    cases h
    rcases hq : p.phase <;> simp_all
  case getPixel => split at h <;> cases h; rfl
  all_goals (cases h; rfl)

/-- The same over any sequence of operations without a Reset. -/
theorem hostRun_phase {ops : List HostOp} (hops : HostOp.reset ∉ ops) (hp : p.phase ≠ .awaitingLoad)
    (h : hostRun ops p = .next q) : q.phase = p.phase := by
  induction ops generalizing p with
  | nil => cases h; rfl
  | cons op ops ih =>
    rw [hostRun] at h
    rw [List.mem_cons, not_or] at hops
    split at h
    · have h1 := hostStep_phase (Ne.symm hops.1) hp ‹_›
      exact (ih hops.2 (h1 ▸ hp) h).trans h1
    · cases h
    · cases h

end Sys2Proof.Machine
end

