-- ==== Sys2Proof/Laws/Operands.lean ====
section
/-! SUPPORT. What the operand forms do: the bound of a data access, the bytes of a block store, the key operand, KEY_PICK. -/

namespace Sys2Proof.Machine

variable {s : State}

/-- The bound of R35: no bytes, or all of them below MEM_SIZE. -/
theorem State.dataInBounds_iff (len : Nat) : s.dataInBounds len = true ↔ len = 0 ∨ s.i.toNat + len ≤ s.cfg.memSize := by
  simp [State.dataInBounds]

theorem State.dataInBounds_false (len : Nat) (h : len ≠ 0) :
    s.dataInBounds len = false ↔ s.cfg.memSize < s.i.toNat + len := by
  simp [State.dataInBounds, h]

@[simp] theorem State.dataAddr_eq (k : Nat) : s.dataAddr k = s.i.toNat + k := rfl

@[simp] theorem State.length_regBytes (x : Reg) : (s.regBytes x).length = x.val + 1 := by simp [State.regBytes]

/-- A block store's k-th byte is Vk (R100). -/
theorem State.getElem?_regBytes (x r : Reg) (h : r ≤ x) : (s.regBytes x)[r.val]? = some (s.getV r) := by
  simp [State.regBytes, getElem?_regsUpTo x r h]

@[simp] theorem length_bcdDigits (b : Byte) : (bcdDigits b).length = 3 := rfl

/-- A key operand is a value of at most 15 (R110). -/
theorem State.keyOperand_some (x : Reg) (h : (s.getV x).toNat ≤ 15) : s.keyOperand x = some (s.getV x).toNat := by
  simp [State.keyOperand, h]

theorem State.keyOperand_none (x : Reg) (h : 15 < (s.getV x).toNat) : s.keyOperand x = none := by
  simp [State.keyOperand, h]

/-- A mask that is not 0 has a set bit. -/
theorem exists_key_of_ne_zero {mask : Word} (h : mask ≠ 0) : ∃ k < 16, mask.getLsbD k = true := by
  by_contra hc
  push Not at hc
  exact h (BitVec.eq_of_getLsbD_eq fun k hk => by simpa using hc k hk)

/-- The default of KEY_PICK is a set index, and the lowest one (R4). -/
theorem lowestKey_spec {mask : Word} (h : mask ≠ 0) :
    lowestKey mask < 16 ∧ mask.getLsbD (lowestKey mask) = true ∧ ∀ j < lowestKey mask, mask.getLsbD j = false := by
  obtain ⟨k, hk, hb⟩ := exists_key_of_ne_zero h
  cases hf : (List.range 16).find? fun k => mask.getLsbD k with
  | none =>
    rw [List.find?_eq_none] at hf
    exact absurd hb (hf k (List.mem_range.2 hk))
  | some m =>
    have hl : lowestKey mask = m := by simp [lowestKey, hf]
    rw [List.find?_range_eq_some] at hf
    rw [hl]
    exact ⟨List.mem_range.1 hf.2.1, hf.1, fun j hj => by simpa using hf.2.2 j hj⟩

/-- KEY_PICK is the index of a set bit, below 16 (R4). -/
theorem keyPick_spec {c : Config} {mask : Word} (h : mask ≠ 0) :
    keyPick c mask < 16 ∧ mask.getLsbD (keyPick c mask) = true := by
  have hl := lowestKey_spec h
  unfold keyPick
  split
  · rename_i k _
    split
    · exact ⟨k.isLt, ‹_›⟩
    · exact ⟨hl.1, hl.2.1⟩
  · exact ⟨hl.1, hl.2.1⟩

theorem keyPick_default {c : Config} {mask : Word} (h : c.keyPick = []) : keyPick c mask = lowestKey mask := by
  simp [keyPick, h]

end Sys2Proof.Machine
end

