-- ==== Sys2Proof/Laws/PerInstr.lean ====
section
/-! SUPPORT. Statements made instruction by instruction. SelectsRow: the encoding of an instruction selects the instruction's own
row of the opcode table (30_encoding.md rule R50). -/

namespace Sys2Proof

/-- The rows of the opcode table are disjoint: no word selects two (R50). Two rows differ in a bit both fix. -/
theorem opcodeTable_disjoint :
    opcodeTable.Pairwise fun p q => p.mask &&& q.mask &&& (p.value ^^^ q.value) ≠ 0 := by decide

/-- A word selects at most one of two rows that differ in a bit both fix. -/
theorem row_unique {p q : OpcodeRow} {w : Word} (h : p.mask &&& q.mask &&& (p.value ^^^ q.value) ≠ 0)
    (hp : w &&& p.mask = p.value) : w &&& q.mask ≠ q.value := by
  intro hq
  apply h
  rw [← hp, ← hq]
  apply BitVec.eq_of_getLsbD_eq
  intro k _
  simp only [BitVec.getLsbD_and, BitVec.getLsbD_xor]
  cases w.getLsbD k <;> cases p.mask.getLsbD k <;> cases q.mask.getLsbD k <;> simp

theorem and_ones4 (a : BitVec 4) : a &&& 0xF#4 = a := BitVec.and_allOnes (x := a)

theorem and_ones8 (a : BitVec 8) : a &&& 0xFF#8 = a := BitVec.and_allOnes (x := a)

theorem formatA_family (fam : BitVec 4) (nnn : Addr12) : formatA fam nnn &&& 0xF000#16 = fam ++ 0#12 := by
  rw [formatA, show (0xF000#16 : BitVec 16) = 0xF#4 ++ 0#12 from rfl, BitVec.and_append]
  rw [and_ones4]
  simp

theorem formatXB_family (fam : BitVec 4) (x : Reg) (nn : Byte) :
    formatXB fam x nn &&& 0xF000#16 = fam ++ 0#4 ++ 0#8 := by
  rw [formatXB, show (0xF000#16 : BitVec 16) = 0xF#4 ++ 0#4 ++ 0#8 from rfl, BitVec.and_append, BitVec.and_append,
    and_ones4]
  simp

theorem formatXB_sub (fam : BitVec 4) (x : Reg) (nn : Byte) : formatXB fam x nn &&& 0xF0FF#16 = fam ++ 0#4 ++ nn := by
  rw [formatXB, show (0xF0FF#16 : BitVec 16) = 0xF#4 ++ 0#4 ++ 0xFF#8 from rfl, BitVec.and_append, BitVec.and_append,
    and_ones4, and_ones8]
  simp

theorem formatXYN_family (fam : BitVec 4) (x y : Reg) (n : Nibble) :
    formatXYN fam x y n &&& 0xF000#16 = fam ++ 0#4 ++ 0#4 ++ 0#4 := by
  rw [formatXYN, show (0xF000#16 : BitVec 16) = 0xF#4 ++ 0#4 ++ 0#4 ++ 0#4 from rfl, BitVec.and_append, BitVec.and_append,
    BitVec.and_append, and_ones4]
  simp

theorem formatXYN_sub (fam : BitVec 4) (x y : Reg) (n : Nibble) :
    formatXYN fam x y n &&& 0xF00F#16 = fam ++ 0#4 ++ 0#4 ++ n := by
  rw [formatXYN, show (0xF00F#16 : BitVec 16) = 0xF#4 ++ 0#4 ++ 0#4 ++ 0xF#4 from rfl, BitVec.and_append,
    BitVec.and_append, BitVec.and_append, and_ones4, and_ones4]
  simp

namespace Laws.SelectsRow

/-- The encoding selects the instruction's row of R50. -/
def Statement (i : Instr) : Prop :=
  ∃ r, opcodeTable[rowIndex i]? = some r ∧ encode i &&& r.mask = r.value

theorem cls : Statement (.cls) := ⟨_, rfl, rfl⟩

theorem ret : Statement (.ret) := ⟨_, rfl, rfl⟩

theorem jpAddr (nnn : Addr12) : Statement (.jpAddr nnn) := ⟨_, rfl, formatA_family _ _⟩

theorem callAddr (nnn : Addr12) : Statement (.callAddr nnn) := ⟨_, rfl, formatA_family _ _⟩

theorem seVxNN (x : Reg) (nn : Byte) : Statement (.seVxNN x nn) := ⟨_, rfl, formatXB_family _ _ _⟩

theorem sneVxNN (x : Reg) (nn : Byte) : Statement (.sneVxNN x nn) := ⟨_, rfl, formatXB_family _ _ _⟩

theorem seVxVy (x y : Reg) : Statement (.seVxVy x y) := ⟨_, rfl, formatXYN_family _ _ _ _⟩

theorem ldVxNN (x : Reg) (nn : Byte) : Statement (.ldVxNN x nn) := ⟨_, rfl, formatXB_family _ _ _⟩

theorem addVxNN (x : Reg) (nn : Byte) : Statement (.addVxNN x nn) := ⟨_, rfl, formatXB_family _ _ _⟩

theorem ldVxVy (x y : Reg) : Statement (.ldVxVy x y) := ⟨_, rfl, formatXYN_sub _ _ _ _⟩

theorem orVxVy (x y : Reg) : Statement (.orVxVy x y) := ⟨_, rfl, formatXYN_sub _ _ _ _⟩

theorem andVxVy (x y : Reg) : Statement (.andVxVy x y) := ⟨_, rfl, formatXYN_sub _ _ _ _⟩

theorem xorVxVy (x y : Reg) : Statement (.xorVxVy x y) := ⟨_, rfl, formatXYN_sub _ _ _ _⟩

theorem addVxVy (x y : Reg) : Statement (.addVxVy x y) := ⟨_, rfl, formatXYN_sub _ _ _ _⟩

theorem subVxVy (x y : Reg) : Statement (.subVxVy x y) := ⟨_, rfl, formatXYN_sub _ _ _ _⟩

theorem shrVx (x : Reg) : Statement (.shrVx x) := ⟨_, rfl, formatXYN_sub _ _ _ _⟩

theorem subnVxVy (x y : Reg) : Statement (.subnVxVy x y) := ⟨_, rfl, formatXYN_sub _ _ _ _⟩

theorem shlVx (x : Reg) : Statement (.shlVx x) := ⟨_, rfl, formatXYN_sub _ _ _ _⟩

theorem sneVxVy (x y : Reg) : Statement (.sneVxVy x y) := ⟨_, rfl, formatXYN_family _ _ _ _⟩

theorem ldIAddr (nnn : Addr12) : Statement (.ldIAddr nnn) := ⟨_, rfl, formatA_family _ _⟩

theorem jpV0Addr (nnn : Addr12) : Statement (.jpV0Addr nnn) := ⟨_, rfl, formatA_family _ _⟩

theorem rndVxNN (x : Reg) (nn : Byte) : Statement (.rndVxNN x nn) := ⟨_, rfl, formatXB_family _ _ _⟩

theorem drwVxVyN (x y : Reg) (n : Nibble) : Statement (.drwVxVyN x y n) := ⟨_, rfl, formatXYN_family _ _ _ _⟩

theorem skpVx (x : Reg) : Statement (.skpVx x) := ⟨_, rfl, formatXB_sub _ _ _⟩

theorem sknpVx (x : Reg) : Statement (.sknpVx x) := ⟨_, rfl, formatXB_sub _ _ _⟩

theorem ldVxDT (x : Reg) : Statement (.ldVxDT x) := ⟨_, rfl, formatXB_sub _ _ _⟩

theorem ldVxK (x : Reg) : Statement (.ldVxK x) := ⟨_, rfl, formatXB_sub _ _ _⟩

theorem ldDTVx (x : Reg) : Statement (.ldDTVx x) := ⟨_, rfl, formatXB_sub _ _ _⟩

theorem ldSTVx (x : Reg) : Statement (.ldSTVx x) := ⟨_, rfl, formatXB_sub _ _ _⟩

theorem addIVx (x : Reg) : Statement (.addIVx x) := ⟨_, rfl, formatXB_sub _ _ _⟩

theorem ldFVx (x : Reg) : Statement (.ldFVx x) := ⟨_, rfl, formatXB_sub _ _ _⟩

theorem ldBVx (x : Reg) : Statement (.ldBVx x) := ⟨_, rfl, formatXB_sub _ _ _⟩

theorem ldMemVx (x : Reg) : Statement (.ldMemVx x) := ⟨_, rfl, formatXB_sub _ _ _⟩

theorem ldVxMem (x : Reg) : Statement (.ldVxMem x) := ⟨_, rfl, formatXB_sub _ _ _⟩

end Laws.SelectsRow

end Sys2Proof
end

