-- ==== Sys2Proof/Tests/Slice0.lean ====
section
/-! SUPPORT. Slice0: the model's own tests. Words and expected results are those of 95_test_vectors.md (Part 1 and Part 2), which
derives them from the rules. Then, for each obligation with hypotheses, a concrete state that meets them, clause by clause. -/

namespace Sys2Proof.Machine.Tests

/-- The outcome is a next state with the property `p`. -/
def gives (o : Host.Outcome State Fault Refusal) (p : State → Bool) : Bool :=
  match o with
  | .next t => p t
  | .fault _ => false
  | .refused _ => false

/-- One cycle of the word `w`, placed at PC. -/
def runs (s : State) (w : Nat) (p : State → Bool) : Bool := gives (step (s.withFetchWord 16 w)) p

/-- The outcome is a next state, the one given by `p`, that raised this record. -/
def raisedAs (cause : BitVec 3) (word pc : Word) (t : State) : Bool := decide (t.fault = ⟨true, cause, word, pc⟩)

/-- The state right after reset, and registers set on it. -/
def base : State := State.reset
def with1 (x : Reg) (a : Byte) : State := base.setV x a
def with2 (x : Reg) (a : Byte) (y : Reg) (b : Byte) : State := (base.setV x a).setV y b
def withI (s : State) (i : Word) : State := { s with i := i }

/-! ### Decoding: one word for each constructor (95_test_vectors.md Part 2 section 1) -/

theorem test_decode_cls : decodeWord 0x00E0 = .ok .cls := by decide
theorem test_decode_ret : decodeWord 0x00EE = .ok .ret := by decide
theorem test_decode_jp : decodeWord 0x1234 = .ok (.jpAddr 0x234) := by decide
theorem test_decode_call : decodeWord 0x2FFF = .ok (.callAddr 0xFFF) := by decide
theorem test_decode_se_byte : decodeWord 0x3A42 = .ok (.seVxNN 0xA 0x42) := by decide
theorem test_decode_sne_byte : decodeWord 0x4A42 = .ok (.sneVxNN 0xA 0x42) := by decide
theorem test_decode_se_reg : decodeWord 0x5AB0 = .ok (.seVxVy 0xA 0xB) ∧ decodeWord 0x5AB7 = .ok (.seVxVy 0xA 0xB) := by decide
theorem test_decode_ld_byte : decodeWord 0x6F01 = .ok (.ldVxNN 0xF 0x01) := by decide
theorem test_decode_add_byte : decodeWord 0x7003 = .ok (.addVxNN 0 0x03) := by decide
theorem test_decode_family8 :
    decodeWord 0x8AB0 = .ok (.ldVxVy 0xA 0xB) ∧ decodeWord 0x8AB1 = .ok (.orVxVy 0xA 0xB) ∧
    decodeWord 0x8AB2 = .ok (.andVxVy 0xA 0xB) ∧ decodeWord 0x8AB3 = .ok (.xorVxVy 0xA 0xB) ∧
    decodeWord 0x8AB4 = .ok (.addVxVy 0xA 0xB) ∧ decodeWord 0x8AB5 = .ok (.subVxVy 0xA 0xB) ∧
    decodeWord 0x8AB6 = .ok (.shrVx 0xA) ∧ decodeWord 0x8AB7 = .ok (.subnVxVy 0xA 0xB) ∧
    decodeWord 0x8ABE = .ok (.shlVx 0xA) := by decide
theorem test_decode_sne_reg : decodeWord 0x9AB0 = .ok (.sneVxVy 0xA 0xB) ∧ decodeWord 0x9ABF = .ok (.sneVxVy 0xA 0xB) := by decide
theorem test_decode_ld_i : decodeWord 0xA123 = .ok (.ldIAddr 0x123) := by decide
theorem test_decode_jp_v0 : decodeWord 0xBFFF = .ok (.jpV0Addr 0xFFF) := by decide
theorem test_decode_rnd : decodeWord 0xC2FF = .ok (.rndVxNN 2 0xFF) := by decide
theorem test_decode_drw : decodeWord 0xD12F = .ok (.drwVxVyN 1 2 0xF) ∧ decodeWord 0xD120 = .ok (.drwVxVyN 1 2 0) := by decide
theorem test_decode_familyE : decodeWord 0xE19E = .ok (.skpVx 1) ∧ decodeWord 0xE1A1 = .ok (.sknpVx 1) := by decide
theorem test_decode_familyF :
    decodeWord 0xF107 = .ok (.ldVxDT 1) ∧ decodeWord 0xFF0A = .ok (.ldVxK 0xF) ∧ decodeWord 0xF115 = .ok (.ldDTVx 1) ∧
    decodeWord 0xF118 = .ok (.ldSTVx 1) ∧ decodeWord 0xF11E = .ok (.addIVx 1) ∧ decodeWord 0xF129 = .ok (.ldFVx 1) ∧
    decodeWord 0xF133 = .ok (.ldBVx 1) ∧ decodeWord 0xF155 = .ok (.ldMemVx 1) ∧ decodeWord 0xF165 = .ok (.ldVxMem 1) := by
  decide

/-- Unknown words, rejected by the name of their family. -/
theorem test_decode_unknown :
    decodeWord 0x0000 = .error (.unknownFamily0 0x0000) ∧ decodeWord 0x00E1 = .error (.unknownFamily0 0x00E1) ∧
    decodeWord 0x01E0 = .error (.unknownFamily0 0x01E0) ∧ decodeWord 0x0123 = .error (.unknownFamily0 0x0123) ∧
    decodeWord 0x8AB8 = .error (.unknownFamily8 0x8AB8) ∧ decodeWord 0x8ABF = .error (.unknownFamily8 0x8ABF) ∧
    decodeWord 0xE19F = .error (.unknownFamilyE 0xE19F) ∧ decodeWord 0xE100 = .error (.unknownFamilyE 0xE100) ∧
    decodeWord 0xF100 = .error (.unknownFamilyF 0xF100) ∧ decodeWord 0xF175 = .error (.unknownFamilyF 0xF175) := by decide

/-- Too few bytes for a word, and a stream with more behind it (R45); the table numbering is the word itself. -/
theorem test_decode_bytes :
    decodeBytes [0x60] = .error .truncated ∧ decodeBytes [0x60, 0x05, 0x70] = .ok (.ldVxNN 0 5, [0x70]) ∧
    decodeTableWord 16 0xD12F = some (.drwVxVyN 1 2 0xF) ∧ decodeTableWord 16 0x8AB8 = none := by decide

/-- EX11: the fields of D12F. -/
theorem test_fields :
    fieldFam 0xD12F = 0xD ∧ fieldX 0xD12F = 1 ∧ fieldY 0xD12F = 2 ∧ fieldN 0xD12F = 0xF ∧ fieldNN 0xD12F = 0x2F ∧
    fieldNNN 0xD12F = 0x12F := by decide

/-! ### WellFormed: an ill-formed term for each check -/

theorem test_wf_standard : standardConfig.wellFormed = true := by decide
theorem test_wf_memory_too_small : ({ standardConfig with memSize := 4095 } : Config).wellFormed = false := by decide
theorem test_wf_memory_too_large : ({ standardConfig with memSize := 65537 } : Config).wellFormed = false := by decide
theorem test_wf_font_too_high : ({ standardConfig with fontBase := 0x1B1 } : Config).wellFormed = false := by decide
theorem test_wf_no_period : ({ standardConfig with tickPeriod := 0 } : Config).wellFormed = false := by decide
theorem test_wf_unpressed_pick : ({ standardConfig with keyPick := [(0x0081, 3)] } : Config).wellFormed = false := by decide
theorem test_wf_bounds :
    ({ standardConfig with memSize := 65536, fontBase := 0x1B0, tickPeriod := 1, keyPick := [(0x0081, 7)] } :
      Config).wellFormed = true := by decide

/-! ### Control transfer (Part 2 section 2) -/

theorem test_ret : runs { base with sp := 1, stack := base.stack.set 0 0x0ABC } 0x00EE
    (fun t => t.sp == 0 && t.pc == 0x0ABC) = true := by decide
theorem test_ret_empty : runs base 0x00EE (fun t => raisedAs 3 0x00EE 0x200 t && t.pc == 0x200 && t.tick == 2) = true := by decide
theorem test_jp : runs base 0x1201 (fun t => t.pc == 0x201) = true := by decide
theorem test_call_last : runs { base with sp := 15 } 0x2300
    (fun t => t.sp == 16 && t.pc == 0x300 && t.stackAt 15 == 0x202) = true := by decide
theorem test_call_full : runs { base with sp := 16 } 0x2300 (fun t => raisedAs 2 0x2300 0x200 t && t.sp == 16) = true := by decide
theorem test_se_byte : runs (with1 3 0x2A) 0x332A (fun t => t.pc == 0x204) = true := by decide
theorem test_se_byte_differs : runs (with1 3 0x2B) 0x332A (fun t => t.pc == 0x202) = true := by decide
theorem test_sne_byte : runs (with1 3 0x2B) 0x432A (fun t => t.pc == 0x204) = true := by decide
theorem test_se_reg : runs (with2 1 7 2 8) 0x5120 (fun t => t.pc == 0x202) = true := by decide
theorem test_se_reg_same : runs (with1 1 7) 0x5110 (fun t => t.pc == 0x204) = true := by decide
theorem test_sne_reg : runs (with2 1 7 2 8) 0x9120 (fun t => t.pc == 0x204) = true := by decide
theorem test_jp_v0 : runs (with1 0 0xFF) 0xBFFF (fun t => t.pc == 0x10FE) = true := by decide
theorem test_skip_wraps : runs { base with cfg := { standardConfig with memSize := 65536 }, pc := 0xFFFC } 0x3000
    (fun t => t.pc == 0) = true := by decide

/-! ### Register load and ALU (Part 2 section 3) -/

theorem test_ld_byte : runs base 0x6FAB (fun t => t.getV 15 == 0xAB && t.pc == 0x202) = true := by decide
theorem test_add_byte_wraps : runs (with1 0 0xFF) 0x7001 (fun t => t.getV 0 == 0 && t.getV 15 == 0) = true := by decide
theorem test_ld_reg : runs (with2 1 0x11 2 0x5A) 0x8120 (fun t => t.getV 1 == 0x5A) = true := by decide
theorem test_or : runs (with2 1 0xF0 2 0x0F) 0x8121 (fun t => t.getV 1 == 0xFF) = true := by decide
theorem test_and : runs (with2 1 0xF0 2 0x3C) 0x8122 (fun t => t.getV 1 == 0x30) = true := by decide
theorem test_xor : runs (with2 1 0xF0 2 0x3C) 0x8123 (fun t => t.getV 1 == 0xCC) = true := by decide
theorem test_add_carry : runs (with2 0 0xFF 1 0x01) 0x8014 (fun t => t.getV 0 == 0 && t.getV 15 == 1 && t.getV 1 == 1) = true := by
  decide
theorem test_add_to_flag : runs (with2 15 0x01 1 0x01) 0x8F14 (fun t => t.getV 15 == 0) = true := by decide
theorem test_sub_borrow : runs (with2 1 0x10 2 0x20) 0x8125 (fun t => t.getV 1 == 0xF0 && t.getV 15 == 0) = true := by decide
theorem test_sub_flag_itself : runs (with1 15 0x07) 0x8FF5 (fun t => t.getV 15 == 1) = true := by decide
theorem test_shr : runs (with1 1 0x05) 0x8126 (fun t => t.getV 1 == 0x02 && t.getV 15 == 1) = true := by decide
theorem test_subn : runs (with2 1 0x20 2 0x10) 0x8127 (fun t => t.getV 1 == 0xF0 && t.getV 15 == 0) = true := by decide
theorem test_subn_equal : runs (with2 1 0x33 2 0x33) 0x8127 (fun t => t.getV 1 == 0 && t.getV 15 == 1) = true := by decide
theorem test_shl : runs (with1 1 0x81) 0x812E (fun t => t.getV 1 == 0x02 && t.getV 15 == 1) = true := by decide
theorem test_rnd_advances : runs base 0xC1FF (fun t => t.pc == 0x202 && t.draws == 1) = true := by decide
/-- C100: whatever the draw, V1 is 0. -/
theorem test_rnd_mask_zero : ∃ t, exec (.rndVxNN 1 0) base = .next t ∧ t.getV 1 = 0 := ⟨_, rfl, BitVec.and_zero⟩

/-! ### Address register, loads and stores (Part 2 section 4) -/

theorem test_ld_i : runs base 0xAFFF (fun t => t.i == 0x0FFF) = true := by decide
theorem test_add_i_wraps : runs (withI (with1 2 1) 0xFFFF) 0xF21E (fun t => t.i == 0 && t.getV 15 == 0) = true := by decide
theorem test_ld_f : runs (with1 1 0xFF) 0xF129 (fun t => t.i == 0x04FB) = true := by decide
theorem test_ld_f_base : runs { with1 1 0x0A with cfg := { standardConfig with fontBase := 0x050 } } 0xF129
    (fun t => t.i == 0x0082) = true := by decide
theorem test_ld_b : runs (withI (with1 0 0xEA) 0xFFD) 0xF033
    (fun t => t.readByte 0xFFD == 2 && t.readByte 0xFFE == 3 && t.readByte 0xFFF == 4) = true := by decide
theorem test_ld_b_bound : runs (withI (with1 0 0xEA) 0xFFE) 0xF033
    (fun t => raisedAs 5 0xF033 0x200 t && t.readByte 0xFFE == 0) = true := by decide
theorem test_store_block : runs (withI ((with2 0 0x11 1 0x22).setV 3 0x44) 0x400) 0xF155
    (fun t => t.readByte 0x400 == 0x11 && t.readByte 0x401 == 0x22 && t.readByte 0x402 == 0 && t.i == 0x400) = true := by decide
theorem test_store_block_bound : runs (withI base 0xFF1) 0xFF55 (raisedAs 5 0xFF55 0x200) = true := by decide
theorem test_load_block : runs (withI ((with1 2 0x99).writeBytes 0x300 [2, 3, 4]) 0x300) 0xF165
    (fun t => t.getV 0 == 2 && t.getV 1 == 3 && t.getV 2 == 0x99 && t.i == 0x300) = true := by decide
theorem test_load_block_bound : runs (withI base 0x1000) 0xF065 (raisedAs 5 0xF065 0x200) = true := by decide

/-! ### Display (Part 2 section 5) -/

theorem test_cls : runs { base with fb := Framebuffer.blank.flip 5 5 } 0x00E0 (fun t => t.dirty && !t.fb.pixel 5 5) = true := by decide
theorem test_drw_wraps : runs (withI ((with2 1 63 2 31).writeBytes 0x300 [0xC0, 0xC0]) 0x300) 0xD122
    (fun t => t.fb.pixel 31 63 && t.fb.pixel 31 0 && t.fb.pixel 0 63 && t.fb.pixel 0 0 && !t.fb.pixel 0 1 && t.getV 15 == 0) = true := by
  decide
theorem test_drw_collides : runs { withI (base.writeBytes 0x300 [0xC0]) 0x300 with fb := Framebuffer.blank.flip 0 0 } 0xD121
    (fun t => !t.fb.pixel 0 0 && t.fb.pixel 0 1 && t.getV 15 == 1) = true := by decide

/-! ### Keypad and timers (Part 2 section 6) -/

theorem test_skp : runs { with1 2 5 with key := 0x0020 } 0xE29E (fun t => t.pc == 0x204) = true := by decide
theorem test_skp_index : runs (with1 2 0x10) 0xE29E (raisedAs 6 0xE29E 0x200) = true := by decide
theorem test_sknp : runs { with1 2 5 with key := 0x0004 } 0xE2A1 (fun t => t.pc == 0x204) = true := by decide
theorem test_ld_dt : runs { base with dt := 0x2A } 0xF307 (fun t => t.getV 3 == 0x2A) = true := by decide
theorem test_wait_no_key : runs base 0xF20A (fun t => t.pc == 0x200 && t.tick == 1) = true := by decide
theorem test_wait_lowest : runs { base with key := 0x0480 } 0xF20A (fun t => t.getV 2 == 7 && t.pc == 0x202) = true := by decide
theorem test_set_dt_and_tick : runs { with1 0 3 with tick := 1 } 0xF015 (fun t => t.dt == 2 && t.tick == 2) = true := by decide
theorem test_set_dt : runs (with1 0 3) 0xF015 (fun t => t.dt == 3 && t.tick == 1) = true := by decide
theorem test_set_st : runs (with1 1 0x10) 0xF118 (fun t => t.st == 0x10 && soundActive t) = true := by decide
theorem test_tick_stops_at_zero : runs { base with tick := 1, dt := 0, st := 0xFF } 0x6000
    (fun t => t.dt == 0 && t.st == 0xFE && t.tick == 2) = true := by decide

/-! ### Faults, unknown words, reset and load (Part 2 sections 7 and 8) -/

theorem test_fetch_bound : gives (step { base with pc := 0xFFF }) (fun t => raisedAs 1 0 0xFFF t && t.pc == 0xFFF && t.tick == 2) = true := by
  decide
theorem test_unknown_abort : runs base 0x8128 (fun t => raisedAs 4 0x8128 0x200 t && t.pc == 0x200) = true := by decide
/-- The reset state under policy skip. -/
def skipping : State := { base with cfg := { standardConfig with unknownPolicy := .skip } }
theorem test_unknown_skip : runs skipping 0x8128
    (fun t => !t.fault.valid && decide (t.unk = ⟨true, 0x8128, 0x200⟩) && t.pc == 0x202 && t.tick == 1) = true := by decide
theorem test_reset_font :
    base.readByte 0 = 0xF0 ∧ base.readByte 4 = 0xF0 ∧ base.readByte 5 = 0x20 ∧ base.readByte 0x4B = 0xF0 ∧
    base.readByte 0x4F = 0x80 ∧ base.readByte 0x50 = 0 := by decide
theorem test_empty_rom_meets_unknown : gives (step base) (raisedAs 4 0 0x200) = true := by decide
/-- What a host sequence leaves: the session it ends in has the property `p`. -/
def leaves (o : Host.Outcome Session Fault Refusal) (p : Session → Bool) : Bool :=
  match o with
  | .next q => p q
  | .fault _ => false
  | .refused _ => false
theorem test_boot : leaves (boot standardConfig [0x60, 0x05]) (fun q => q.machine.fetch == some 0x6005) = true := by decide
/-- LoadROM twice, and after a cycle: refused (S10). -/
theorem test_load_twice : hostRun [.reset, .loadRom [], .loadRom [0x12]] ⟨base, .closed⟩ = .refused .loadOutsideReset := rfl
theorem test_load_after_cycle : hostRun [.reset, .cycle, .loadRom [0x12]] ⟨base, .closed⟩ = .refused .loadOutsideReset := rfl

/-! ### Witnesses: for each obligation with hypotheses, states and operands that meet them together -/

/-- The outcome is a next state. -/
theorem next_of_gives {o : Host.Outcome State Fault Refusal} (h : gives o (fun _ => true) = true) : ∃ t, o = .next t := by
  cases o with
  | next t => exact ⟨t, rfl⟩
  | fault _ => cases h
  | refused _ => cases h

/-- The reset state with the word `w` at PC. -/
def placed (w : Nat) : State := base.withFetchWord 16 w
def wideConfig : Config := { standardConfig with memSize := 65536 }
def halted : State := { base with fault := ⟨true, 3, 0x00EE, 0x200⟩ }

theorem witness_OnlyIgnoredBitsAreDropped :
    decodeWord 0x5AB7 = .ok (.seVxVy 0xA 0xB) ∧ decodeWord 0x8AB6 = .ok (.shrVx 0xA) ∧ decodeWord 0x8AB5 = .ok (.subVxVy 0xA 0xB) := by
  decide
theorem witness_DecoderFollowsOpcodeTable :
    decodeWord 0x8014 = .ok (.addVxVy 0 1) ∧
    (⟨"ADD Vx,Vy", 0xF00F, 0x8004⟩ : OpcodeRow) ∈ opcodeTable ∧ (0x8014 : Word) &&& 0xF00F = 0x8004 := by decide
theorem witness_StepRunsDecodedInstruction :
    (placed 0x6005).running ∧ (placed 0x6005).pc.toNat + 1 < (placed 0x6005).cfg.memSize ∧
    decodeBytes [(placed 0x6005).readByte (placed 0x6005).pc.toNat, (placed 0x6005).readByte ((placed 0x6005).pc.toNat + 1)] =
      .ok (.ldVxNN 0 5, []) ∧ ∃ t, exec (.ldVxNN 0 5) (placed 0x6005) = .next t ∧ t.fault.valid = false :=
  ⟨rfl, by decide, by decide, _, rfl, rfl⟩
theorem witness_StepRunsDecodedInstruction_raises :
    decodeBytes [(placed 0x00EE).readByte (placed 0x00EE).pc.toNat, (placed 0x00EE).readByte ((placed 0x00EE).pc.toNat + 1)] =
      .ok (.ret, []) ∧ ∃ t, exec .ret (placed 0x00EE) = .next t ∧ t.fault.valid = true :=
  ⟨by decide, _, rfl, rfl⟩
theorem witness_FetchIsBigEndianWithinMemory :
    ({ base with pc := 0xFFE } : State).fetch = some 0 ∧ ({ base with pc := 0xFFF } : State).fetch = none ∧
    ({ base with cfg := wideConfig, pc := 0xFFFE } : State).fetch = some 0 ∧
    ({ base with cfg := wideConfig, pc := 0xFFFF } : State).fetch = none := by decide
theorem witness_FetchPastMemoryRaises :
    ({ base with pc := 0xFFF } : State).running ∧ standardConfig.memSize ≤ ({ base with pc := 0xFFF } : State).pc.toNat + 1 :=
  ⟨rfl, by decide⟩
theorem witness_UnknownOpcodeFollowsPolicy :
    unknownWord 0x8128 ∧ unknownWord 0x0000 ∧ unknownWord 0xE19F ∧ unknownWord 0xF1FF ∧
    (placed 0x8128).running ∧ (placed 0x8128).fetch = some 0x8128 ∧ (placed 0x8128).cfg.unknownPolicy = .abort ∧
    (skipping.withFetchWord 16 0x8128).running ∧ (skipping.withFetchWord 16 0x8128).fetch = some 0x8128 ∧
    (skipping.withFetchWord 16 0x8128).cfg.unknownPolicy = .skip :=
  ⟨.inr (.inl (by decide)), .inl (by decide), .inr (.inr (.inl (by decide))), .inr (.inr (.inr (by decide))),
    rfl, by decide, rfl, rfl, by decide, rfl⟩
theorem witness_HaltedMachineNeverChanges : halted.fault.valid = true := rfl
theorem witness_FaultsArePrecise :
    (placed 0x00EE).running ∧ ∃ t, step (placed 0x00EE) = .next t ∧ t.fault.valid = true := ⟨rfl, _, rfl, rfl⟩
theorem witness_InstructionsRaiseExactlyTheirCause :
    raisesWhen (.callAddr 0) { base with sp := 16 } = some .stackOverflow ∧ raisesWhen (.callAddr 0) { base with sp := 15 } = none ∧
    raisesWhen .ret base = some .stackUnderflow ∧ raisesWhen .ret { base with sp := 1 } = none ∧
    raisesWhen (.drwVxVyN 0 0 2) (withI base 0xFFF) = some .dataBound ∧ raisesWhen (.drwVxVyN 0 0 1) (withI base 0xFFF) = none ∧
    raisesWhen (.drwVxVyN 0 0 0) (withI base 0xFFFF) = none ∧ raisesWhen (.ldBVx 0) (withI base 0xFFE) = some .dataBound ∧
    raisesWhen (.ldMemVx 15) (withI base 0xFF1) = some .dataBound ∧ raisesWhen (.ldVxMem 15) (withI base 0xFF0) = none ∧
    raisesWhen (.skpVx 2) (with1 2 0x10) = some .keypadIndex ∧ raisesWhen (.sknpVx 2) (with1 2 0x0F) = none ∧
    raisesWhen .cls base = none := by decide
theorem witness_TimersUpdateOncePerPeriod : 1 ≤ base.tick ∧ base.tick = 2 ∧ 1 ≤ ({ base with tick := 1 } : State).tick := by decide
theorem witness_PlainInstructionsAdvanceByTwo :
    transfersControl (.ldVxNN 0 5) = false ∧ base.running ∧ ∃ t, exec (.ldVxNN 0 5) base = .next t ∧ t.running :=
  ⟨rfl, rfl, _, rfl, rfl⟩

theorem base_inv : base.Inv :=
  ⟨by decide, by decide, by decide, ⟨.nil, fun _ h => nomatch h⟩, .inl rfl, .inl rfl⟩
theorem witness_InvariantKeptByStep : base.Inv ∧ ∃ t, step base = .next t := ⟨base_inv, _, rfl⟩
theorem witness_InvariantHoldsAtReset : standardConfig.wellFormed = true ∧ wideConfig.wellFormed = true := by decide
/-- The sessions right after Reset, after a load or a cycle, and after a load that failed. -/
def opened : Session := Session.start standardConfig
def shut : Session := ⟨base, .closed⟩
def refusedLoad : Session := ⟨base, .failed⟩
theorem opened_inv : opened.Inv := ⟨base_inv, fun _ => rfl⟩
theorem witness_InvariantKeptByHostRun :
    opened.Inv ∧ ∃ q, hostRun [.loadRom [0x60, 0x05], .setKey 7 true, .cycle, .clearDirty, .reset, .getPixel 31 63] opened = .next q :=
  ⟨opened_inv, _, rfl⟩
theorem witness_ResetValues : base = State.resetWith standardConfig := rfl
/-- An image of 3584 bytes fits, one of 3585 does not (Part 2 section 8). -/
theorem witness_LoadRomCopiesImage :
    opened.Inv ∧ opened.phase = .awaitingLoad ∧
    0x200 + (List.replicate 3584 (1 : Byte)).length ≤ opened.machine.cfg.memSize ∧
    0x200 + ([] : List Byte).length ≤ opened.machine.cfg.memSize :=
  ⟨opened_inv, rfl, by simp only [List.length_replicate]; decide, by decide⟩
/-- An empty image closes the door as any other does, and so does a cycle alone (S10). -/
theorem witness_LoadRomCopiesImage_closed :
    (∃ image, HostOp.loadRom [] = .loadRom image) ∧ hostStep (.loadRom []) opened = .next (shut, .loaded) ∧
    (∃ q r, hostStep .cycle opened = .next (q, r)) ∧ HostOp.reset ∉ [HostOp.cycle, .cycle] ∧
    ∃ u, hostRun [.cycle, .cycle] shut = .next u := ⟨⟨[], rfl⟩, rfl, ⟨_, _, rfl⟩, by decide, _, rfl⟩
theorem hostStep_overlong {image : List Byte} (h : image.length = 3585) :
    hostStep (.loadRom image) opened = .next (refusedLoad, .romTooLarge) :=
  (loadRom_next (p := opened)).2 ⟨rfl, .inl ⟨by rw [h]; decide, rfl⟩⟩
theorem witness_LoadRomCopiesImage_failed :
    (∃ image, hostStep (.loadRom image) opened = .next (refusedLoad, .romTooLarge)) ∧
    HostOp.reset ∉ [HostOp.setKey 3 true, .fault] ∧ ∃ u, hostRun [.setKey 3 true, .fault] refusedLoad = .next u :=
  ⟨⟨List.replicate 3585 1, hostStep_overlong List.length_replicate⟩, by decide, _, rfl⟩
theorem witness_OverlongRomReportedMachineUnchanged :
    opened.phase = .awaitingLoad ∧ opened.machine.cfg.memSize < 0x200 + (List.replicate 3585 (1 : Byte)).length :=
  ⟨rfl, by simp only [List.length_replicate]; decide⟩
theorem witness_HostTouchesOnlyKeysAndDirty :
    HostOp.clearDirty ≠ .reset ∧ HostOp.clearDirty ≠ .cycle ∧ (∀ bytes, HostOp.clearDirty ≠ .loadRom bytes) ∧
    ∃ q r, hostStep .clearDirty opened = .next (q, r) :=
  ⟨by decide, by decide, by (intro _ h; cases h), _, _, rfl⟩
theorem witness_PixelQueryReadsGrid :
    hostStep (.getPixel 31 63) opened = .next (opened, .bit false) ∧
    hostStep (.getPixel 32 0) opened = .refused (.pixelOutsideGrid 32 0) ∧
    hostStep (.getPixel 0 64) opened = .refused (.pixelOutsideGrid 0 64) := ⟨rfl, rfl, rfl⟩
theorem witness_DirtyQueryAndClear :
    (withI base 0xFFFF = (⟨withI base 0xFFFF, .closed⟩ : Session).machine ∧
      ((0 : Nibble) = 0 ∨ (withI base 0xFFFF).dataAddr 0 + (0 : Nibble).toNat ≤ (withI base 0xFFFF).cfg.memSize)) ∧
    withI base 0xFF1 = (⟨withI base 0xFF1, .closed⟩ : Session).machine ∧
      ((15 : Nibble) = 0 ∨ (withI base 0xFF1).dataAddr 0 + (15 : Nibble).toNat ≤ (withI base 0xFF1).cfg.memSize) :=
  ⟨⟨rfl, by decide⟩, rfl, by decide⟩
theorem witness_PlacedWordIsFetched :
    Memory.wf base.cfg ({ base with pc := 0xFFE } : State).mem ∧
    ({ base with pc := 0xFFE } : State).pc.toNat + 1 < ({ base with pc := 0xFFE } : State).cfg.memSize :=
  ⟨⟨.nil, fun _ h => nomatch h⟩, by decide⟩

theorem witness_RetPopsReturnAddress :
    ({ base with sp := 1 } : State).sp = (0 : Fin 16).val + 1 ∧ ({ base with sp := 16 } : State).sp = (15 : Fin 16).val + 1 ∧
    base.sp = 0 := by decide
theorem witness_CallPushesReturnAddress :
    base.sp < 16 ∧ ({ base with sp := 15 } : State).sp < 16 ∧ ({ base with sp := 16 } : State).sp = 16 := by decide
theorem witness_CallThenRetComesBack : base.sp < 16 ∧ ({ base with sp := 15 } : State).sp < 16 := by decide
theorem witness_AddAndSubtractSetCarryAndBorrow :
    (0xFF : Nat) = ((with2 0 0xFF 1 0x01).getV 0).toNat ∧ (0x01 : Nat) = ((with2 0 0xFF 1 0x01).getV 1).toNat := by decide
theorem witness_ShiftsSetShiftedOutBit : (0x81 : Nat) = ((with1 1 0x81).getV 1).toNat := by decide
theorem witness_RandomByteUnderMask : (0x0F : Byte).getLsbD 4 = false := by decide
theorem witness_FlagWritersLeaveZeroOrOne :
    writesFlag (.subVxVy 15 15) = true ∧ (with1 15 7).running ∧ ∃ t, exec (.subVxVy 15 15) (with1 15 7) = .next t ∧ t.running :=
  ⟨rfl, rfl, _, rfl, rfl⟩
theorem witness_OnlyDestinationsAndFlagChange :
    (∃ t, exec (.addVxVy 0 1) base = .next t) ∧ isDestination (.addVxVy 0 1) 1 = false ∧
    (writesFlag (.addVxVy 0 1) = true → (1 : Reg) ≠ regVF) := ⟨⟨_, rfl⟩, by decide, by decide⟩

theorem witness_StoreDecimalDigits :
    Memory.wf base.cfg (withI base 0xFFD).mem ∧ (withI base 0xFFD).dataAddr 0 + 3 ≤ (withI base 0xFFD).cfg.memSize ∧
    (withI base 0xFFE).cfg.memSize < (withI base 0xFFE).dataAddr 0 + 3 :=
  ⟨⟨.nil, fun _ h => nomatch h⟩, by decide, by decide⟩
theorem witness_StoreAndLoadRegisterBlock :
    Memory.wf base.cfg (withI base 0xFF0).mem ∧
    (withI base 0xFF0).dataAddr 0 + (15 : Reg).val + 1 ≤ (withI base 0xFF0).cfg.memSize ∧
    (withI base 0xFF1).cfg.memSize < (withI base 0xFF1).dataAddr 0 + (15 : Reg).val + 1 :=
  ⟨⟨.nil, fun _ h => nomatch h⟩, by decide, by decide⟩
theorem witness_BlockStoreThenLoadRestores :
    Memory.wf base.cfg (withI base 0xFF0).mem ∧
    (withI base 0xFF0).dataAddr 0 + (15 : Reg).val + 1 ≤ (withI base 0xFF0).cfg.memSize :=
  ⟨⟨.nil, fun _ h => nomatch h⟩, by decide⟩
theorem witness_BytesOutsideTheStoreKept :
    Memory.wf base.cfg (withI base 0x300).mem ∧ (∃ t, exec (.ldMemVx 1) (withI base 0x300) = .next t) ∧
    (withI base 0x300).dataAddr 0 + storedLength (.ldMemVx 1) ≤ 0x302 ∧ 0x2FF < (withI base 0x300).dataAddr 0 :=
  ⟨⟨.nil, fun _ h => nomatch h⟩, ⟨_, rfl⟩, by decide, by decide⟩
theorem witness_StoredWordIsFetchedNext :
    Memory.wf base.cfg (withI base 0x202).mem ∧ 1 ≤ (1 : Reg).val ∧ (withI base 0x202).dataAddr 0 = (withI base 0x202).pc.toNat + 2 ∧
    (withI base 0x202).dataAddr 0 + (1 : Reg).val + 1 ≤ (withI base 0x202).cfg.memSize :=
  ⟨⟨.nil, fun _ h => nomatch h⟩, by decide, by decide, by decide⟩

theorem witness_DrawXorsSprite :
    ((0 : Nibble) = 0 ∨ (withI base 0xFFFF).dataAddr 0 + (0 : Nibble).toNat ≤ (withI base 0xFFFF).cfg.memSize) ∧
    ((1 : Nibble) = 0 ∨ (withI base 0xFFF).dataAddr 0 + (1 : Nibble).toNat ≤ (withI base 0xFFF).cfg.memSize) ∧
    (2 : Nibble) ≠ 0 ∧ (withI base 0xFFF).cfg.memSize < (withI base 0xFFF).dataAddr 0 + (2 : Nibble).toNat := by decide
theorem witness_DrawTwiceRestores :
    (1 : Reg) ≠ regVF ∧ (2 : Reg) ≠ regVF ∧
    ((1 : Nibble) = 0 ∨ (withI base 0xFFF).dataAddr 0 + (1 : Nibble).toNat ≤ (withI base 0xFFF).cfg.memSize) := by decide
theorem witness_SkipsOnKey : ((with1 2 15).getV 2).toNat ≤ 15 ∧ 15 < ((with1 2 16).getV 2).toNat := by decide
theorem witness_WaitForKey : base.key = 0 ∧ ({ base with key := 0x8000 } : State).key ≠ 0 ∧ base.cfg.keyPick = [] := by decide
theorem witness_WaitRepeatsWhileNoKey :
    (placed 0xF20A).running ∧ (placed 0xF20A).key = 0 ∧ (placed 0xF20A).pc.toNat + 1 < (placed 0xF20A).cfg.memSize ∧
    decodeWord ((placed 0xF20A).readWord (placed 0xF20A).pc.toNat) = .ok (.ldVxK 2) :=
  ⟨rfl, by decide, by decide, by decide⟩
theorem witness_LoadedTimerTicksInSameCycle :
    (placed 0xF015).running ∧ (placed 0xF015).fetch = some (encode (.ldDTVx 0)) ∧ 1 ≤ (placed 0xF015).tick ∧
    ({ placed 0xF015 with tick := 1 } : State).fetch = some (encode (.ldDTVx 0)) := ⟨rfl, by decide, by decide, by decide⟩
theorem witness_TimersSetOnlyByTheirLoads :
    (∃ t, exec (.ldSTVx 1) (with1 1 1) = .next t) ∧ (∀ x, Instr.ldSTVx 1 ≠ .ldDTVx x) ∧ ∀ x, Instr.ldDTVx 1 ≠ .ldSTVx x :=
  ⟨⟨_, rfl⟩, by (intro _ h; cases h), by (intro _ h; cases h)⟩

theorem witness_WritesOnlyItsAccessRow :
    base.running ∧ (∃ t, exec (.ldVxNN 0 5) base = .next t ∧ t.running) ∧ StateField.memory ∉ writesField (.ldVxNN 0 5) :=
  ⟨rfl, ⟨_, rfl, rfl⟩, by decide⟩
theorem witness_StepKeepsKeysAndParameters : ∃ t, step (placed 0x6005) = .next t :=
  next_of_gives (by decide)
/-- A stale entry differs at SP and above. -/
def stale : State := { base with stack := base.stack.set 0 0x0ABC }
theorem witness_StaleEntriesUnobservable :
    base.sp ≤ 16 ∧ base.sameButStale stale ∧ (∃ t, runCycles 2 base = .next t) ∧ ∃ t, runCycles 2 stale = .next t :=
  ⟨by decide, ⟨rfl, fun _ h => absurd h (Nat.not_lt_zero _)⟩, ⟨_, rfl⟩, ⟨_, rfl⟩⟩
theorem witness_OutputsUnobservable :
    base.sameButOutputs { base with st := 7, dirty := true, unk := ⟨true, 0x8128, 0x200⟩ } ∧
    ∃ t, runCycles 2 base = .next t := ⟨rfl, _, rfl⟩

end Sys2Proof.Machine.Tests
end

/-! ### What each instruction does, said once

`effect` is an instruction's next state when it does not raise; with the model's `raisesWhen` it gives `exec` whole. The
proofs below speak of `effect` and of the outcomes of `exec`, and not of the arms of `exec`. -/

namespace Sys2Proof.Machine

variable {i : Instr} {s t : State}

/-- The state an instruction leaves when it does not raise: the advance of PC and its own effect (R61, R62). -/
def effect (i : Instr) (s : State) : State :=
  match i with
  | .cls => { s.advance with fb := Framebuffer.blank, dirty := true }
  | .ret => s.pop.jump (s.stackAt (s.sp - 1))
  | .jpAddr nnn => s.jump (zext12 nnn)
  | .callAddr nnn => (s.push s.advance.pc).jump (zext12 nnn)
  | .seVxNN x nn => s.advance.skipIf (s.getV x == nn)
  | .sneVxNN x nn => s.advance.skipIf (s.getV x != nn)
  | .seVxVy x y => s.advance.skipIf (s.getV x == s.getV y)
  | .ldVxNN x nn => s.advance.setV x nn
  | .addVxNN x nn => s.advance.setV x (s.getV x + nn)
  | .ldVxVy x y => s.advance.setV x (s.getV y)
  | .orVxVy x y => s.advance.setV x (s.getV x ||| s.getV y)
  | .andVxVy x y => s.advance.setV x (s.getV x &&& s.getV y)
  | .xorVxVy x y => s.advance.setV x (s.getV x ^^^ s.getV y)
  | .addVxVy x y => s.advance.setResultThenFlag x (s.getV x + s.getV y) (carryFlag (s.getV x) (s.getV y))
  | .subVxVy x y => s.advance.setResultThenFlag x (s.getV x - s.getV y) (noBorrowFlag (s.getV x) (s.getV y))
  | .shrVx x => s.advance.setResultThenFlag x (s.getV x >>> 1) (shiftRightFlag (s.getV x))
  | .subnVxVy x y => s.advance.setResultThenFlag x (s.getV y - s.getV x) (noBorrowFlag (s.getV y) (s.getV x))
  | .shlVx x => s.advance.setResultThenFlag x (s.getV x <<< 1) (shiftLeftFlag (s.getV x))
  | .sneVxVy x y => s.advance.skipIf (s.getV x != s.getV y)
  | .ldIAddr nnn => { s.advance with i := zext12 nnn }
  | .jpV0Addr nnn => s.jump (s.jumpV0Target nnn)
  | .rndVxNN x nn => { s.advance.setV x (Config.freeRandomByte s.draws &&& nn) with draws := s.draws + 1 }
  | .drwVxVyN x y n =>
    { s.advance.setV regVF (collisionFlag (s.drawn x y n).2) with fb := (s.drawn x y n).1, dirty := true }
  | .skpVx x => s.advance.skipIf (s.keyPressed (s.getV x).toNat)
  | .sknpVx x => s.advance.skipIf (!s.keyPressed (s.getV x).toNat)
  | .ldVxDT x => s.advance.setV x s.dt
  | .ldVxK x => if s.key = 0 then s.advance.jump (s.advance.pc - 2)
    else s.advance.setV x (BitVec.ofNat 8 (keyPick s.cfg s.key))
  | .ldDTVx x => { s.advance with dt := s.getV x }
  | .ldSTVx x => { s.advance with st := s.getV x }
  | .addIVx x => { s.advance with i := s.i + zext8 (s.getV x) }
  | .ldFVx x => { s.advance with i := s.fontAddr x }
  | .ldBVx x => s.advance.writeBytes (s.dataAddr 0) (bcdDigits (s.getV x))
  | .ldMemVx x => s.advance.writeBytes (s.dataAddr 0) (s.regBytes x)
  | .ldVxMem x => s.advance.loadRegs x

/-- An instruction whose condition in R121 holds raises its cause with its own word. -/
theorem exec_of_raises {c : FaultCause} (h : raisesWhen i s = some c) : exec i s = raiseFault s c (encode i) := by
  cases i with
  | callAddr | ret =>
    obtain ⟨hsp, rfl⟩ : _ ∧ _ = c := by simpa [raisesWhen] using h
    exact if_pos hsp
  | drwVxVyN x y n =>
    obtain ⟨⟨hn, hm⟩, rfl⟩ : _ ∧ _ = c := by simpa [raisesWhen] using h
    exact if_neg (by rw [State.dataInBounds_iff]; omega)
  | ldBVx | ldMemVx | ldVxMem =>
    obtain ⟨hm, rfl⟩ : _ ∧ _ = c := by simpa [raisesWhen] using h
    exact if_neg (by rw [State.dataInBounds_iff]; omega)
  | skpVx x | sknpVx x =>
    obtain ⟨hx, rfl⟩ : _ ∧ _ = c := by simpa [raisesWhen] using h
    simp only [exec, execSkpVx, execSknpVx, State.keyOperand_none x hx]
  | _ => cases h

/-- Every other instruction has its effect. -/
theorem exec_of_not_raises (h : raisesWhen i s = none) : exec i s = .next (effect i s) := by
  cases i with
  | callAddr | ret => exact if_neg (by simpa [raisesWhen] using h)
  | drwVxVyN | ldBVx | ldMemVx | ldVxMem =>
    simp only [raisesWhen, ite_eq_right_iff, reduceCtorEq, imp_false] at h
    exact if_pos (by rw [State.dataInBounds_iff]; omega)
  | skpVx x | sknpVx x =>
    have hx : (s.getV x).toNat ≤ 15 := by simpa [raisesWhen] using h
    simp only [exec, execSkpVx, execSknpVx, State.keyOperand_some x hx, effect]
  | ldVxK => exact (apply_ite Host.Outcome.next _ _ _).symm
  | _ => rfl

/-- The two outcomes of an instruction: it raises its one cause, writing only FAULT, or has its effect. -/
theorem exec_cases (h : exec i s = .next t) :
    (∃ c, raisesWhen i s = some c ∧ t = { s with fault := ⟨true, c.code, encode i, s.pc⟩ }) ∨
    (raisesWhen i s = none ∧ t = effect i s) := by
  cases hc : raisesWhen i s with
  | some c => exact .inl ⟨c, rfl, raiseFault_next.1 (exec_of_raises hc ▸ h)⟩
  | none => exact .inr ⟨rfl, (Host.Outcome.next.inj (exec_of_not_raises hc ▸ h)).symm⟩

/-- An instruction after which the machine still runs had its effect. -/
theorem eq_effect_of_running (h : exec i s = .next t) (ht : t.running) : raisesWhen i s = none ∧ t = effect i s := by
  obtain ⟨c, _, rfl⟩ | h := exec_cases h
  · cases ht
  · exact h

end Sys2Proof.Machine

/-! ### The access table of R26 -/

namespace Sys2Proof.Machine

variable {i : Instr} {s t u : State} {f : StateField} {fs gs : List StateField}

theorem StateField.same_trans (h : f.same s t) (h' : f.same t u) : f.same s u := by
  cases f with
  | regs | memory => exact fun k => (h' k).trans (h k)
  | callStack => exact ⟨h'.1.trans h.1, h'.2.trans h.2⟩
  | _ => exact Eq.trans h' h

/-- `t` is `s` but for the fields of `fs`. -/
def WritesOnly (fs : List StateField) (s t : State) : Prop := ∀ f, f ∉ fs → f.same s t

/-- One change after another. -/
theorem WritesOnly.trans (h : WritesOnly fs s t) (h' : WritesOnly gs t u) : WritesOnly (fs ++ gs) s u := fun f hf => by
  rw [List.mem_append, not_or] at hf
  exact StateField.same_trans (h f hf.1) (h' f hf.2)

theorem WritesOnly.of_subset (h : WritesOnly fs s t) (hs : fs ⊆ gs) : WritesOnly gs s t :=
  fun f hf => h f fun hm => hf (hs hm)

/-! One lemma per group of fields that the operations of Ops.lean write together. -/

theorem writesOnly_pc (s : State) (a : Word) : WritesOnly [.pc] s { s with pc := a } := by
  intro f hf
  cases f <;> simp_all [StateField.same, State.getV, State.readByte]

theorem writesOnly_regs (s : State) (v : Vector Byte 16) : WritesOnly [.regs] s { s with v := v } := by
  intro f hf
  cases f <;> simp_all [StateField.same, State.readByte]

theorem writesOnly_indexReg (s : State) (a : Word) : WritesOnly [.indexReg] s { s with i := a } := by
  intro f hf
  cases f <;> simp_all [StateField.same, State.getV, State.readByte]

theorem writesOnly_callStack (s : State) (k : Vector Word 16) (n : Nat) :
    WritesOnly [.callStack] s { s with stack := k, sp := n } := by
  intro f hf
  cases f <;> simp_all [StateField.same, State.getV, State.readByte]

theorem writesOnly_memory (s : State) (m : List Host.Cell) : WritesOnly [.memory] s { s with mem := m } := by
  intro f hf
  cases f <;> simp_all [StateField.same, State.getV]

theorem writesOnly_display (s : State) (fb : Framebuffer) (d : Bool) :
    WritesOnly [.framebuffer, .dirty] s { s with fb := fb, dirty := d } := by
  intro f hf
  cases f <;> simp_all [StateField.same, State.getV, State.readByte]

theorem writesOnly_delayTimer (s : State) (b : Byte) : WritesOnly [.delayTimer] s { s with dt := b } := by
  intro f hf
  cases f <;> simp_all [StateField.same, State.getV, State.readByte]

theorem writesOnly_soundTimer (s : State) (b : Byte) : WritesOnly [.soundTimer] s { s with st := b } := by
  intro f hf
  cases f <;> simp_all [StateField.same, State.getV, State.readByte]

theorem writesOnly_drawCount (s : State) (n : Nat) : WritesOnly [.drawCount] s { s with draws := n } := by
  intro f hf
  cases f <;> simp_all [StateField.same, State.getV, State.readByte]

theorem writesOnly_faultLatch (s : State) (r : FaultRecord) : WritesOnly [.faultLatch] s { s with fault := r } := by
  intro f hf
  cases f <;> simp_all [StateField.same, State.getV, State.readByte]

/-- The fetch's advance writes PC, as every instruction does (R61). -/
theorem WritesOnly.of_advance (h : WritesOnly fs s.advance t) : WritesOnly (.pc :: fs) s t :=
  (writesOnly_pc s (s.pc + 2)).trans h

theorem writesOnly_skipIf (s : State) (b : Bool) : WritesOnly [.pc] s (s.advance.skipIf b) := by
  cases b <;> exact writesOnly_pc s _

/-- Every effect keeps to its instruction's row of R26. -/
theorem effect_writesOnly (i : Instr) (s : State) : WritesOnly (writesField i) s (effect i s) := by
  cases i with
  | cls => exact .of_advance (writesOnly_display _ _ _)
  | ret | callAddr => exact .trans (fs := [.pc]) (writesOnly_pc _ _) (writesOnly_callStack _ _ _)
  | jpAddr | jpV0Addr => exact writesOnly_pc _ _
  | seVxNN | sneVxNN | seVxVy | sneVxVy | skpVx | sknpVx => exact writesOnly_skipIf _ _
  | ldVxNN | addVxNN | ldVxVy | orVxVy | andVxVy | xorVxVy | addVxVy | subVxVy | shrVx | subnVxVy | shlVx | ldVxDT
  | ldVxMem =>
    exact .of_advance (writesOnly_regs _ _)
  | ldVxK =>
    rw [effect]
    split
    · exact (writesOnly_pc _ _).of_subset (by simp [writesField])
    · exact .of_advance (writesOnly_regs _ _)
  | rndVxNN => exact .of_advance (.trans (fs := [.regs]) (writesOnly_regs _ _) (writesOnly_drawCount _ _))
  | ldIAddr | addIVx | ldFVx => exact .of_advance (writesOnly_indexReg _ _)
  | drwVxVyN => exact .of_advance (.trans (fs := [.regs]) (writesOnly_regs _ _) (writesOnly_display _ _ _))
  | ldDTVx => exact .of_advance (writesOnly_delayTimer _ _)
  | ldSTVx => exact .of_advance (writesOnly_soundTimer _ _)
  | ldBVx | ldMemVx =>
    rw [effect, State.writeBytes_eq]
    exact .of_advance (writesOnly_memory _ _)

/-! Five fields stand in no row: an effect leaves them alone whatever the instruction. -/

@[simp] theorem effect_cfg (i : Instr) (s : State) : (effect i s).cfg = s.cfg :=
  effect_writesOnly i s .parameters (by cases i <;> simp [writesField])

@[simp] theorem effect_key (i : Instr) (s : State) : (effect i s).key = s.key :=
  effect_writesOnly i s .keys (by cases i <;> simp [writesField])

@[simp] theorem effect_tick (i : Instr) (s : State) : (effect i s).tick = s.tick :=
  effect_writesOnly i s .tickCounter (by cases i <;> simp [writesField])

@[simp] theorem effect_fault (i : Instr) (s : State) : (effect i s).fault = s.fault :=
  effect_writesOnly i s .faultLatch (by cases i <;> simp [writesField])

@[simp] theorem effect_unk (i : Instr) (s : State) : (effect i s).unk = s.unk :=
  effect_writesOnly i s .unknownLatch (by cases i <;> simp [writesField])

/-- The row bounds every execution but for FAULT, since an instruction that raises writes FAULT alone. -/
theorem exec_same (h : exec i s = .next t) (hf : f ≠ .faultLatch) (hw : f ∉ writesField i) : f.same s t := by
  obtain ⟨c, _, rfl⟩ | ⟨_, rfl⟩ := exec_cases h
  · exact writesOnly_faultLatch s _ f (by simpa using hf)
  · exact effect_writesOnly i s f hw

/-- Settles O57: a machine that still runs had the instruction's effect, which keeps to its row. -/
theorem writesOnlyItsAccessRow : Obligations.WritesOnlyItsAccessRow := by
  intro i s t f _ h ht hf
  obtain ⟨_, rfl⟩ := eq_effect_of_running h ht
  exact effect_writesOnly i s f hf

end Sys2Proof.Machine

/-! ### What a cycle does, and what two machines keep in common -/

namespace Sys2Proof.Machine

variable {i : Instr} {s s' t t' : State} {w : Word}

/-- The next state of a cycle of a running machine: a fault latched and nothing else changed, or an instruction's effect and the
tick, or the report of an unknown opcode and the tick. A halted machine stays. -/
theorem step_outcomes (h : step s = .next t) :
    (s.fault.valid = true ∧ t = s) ∨
    (∃ (c : FaultCause) (w : Word), t = { s with fault := ⟨true, c.code, w, s.pc⟩ }) ∨
    (s.fault.valid = false ∧ ∃ i, raisesWhen i s = none ∧ t = (effect i s).timerTick) ∨
    (s.fault.valid = false ∧ s.cfg.unknownPolicy = .skip ∧
      ∃ w, t = ({ s.advance with unk := ⟨true, w, s.pc⟩ } : State).timerTick) := by
  obtain h | ⟨_, _, rfl⟩ | ⟨hv, _, i, u, _, _, hu, ht⟩ | ⟨hv, w, _, u, _, _, hu, ht⟩ := step_cases h
  · exact .inl h
  · exact .inr (.inl ⟨.fetchBound, 0, rfl⟩)
  · obtain ⟨c, _, rfl⟩ | ⟨hn, rfl⟩ := exec_cases hu
    · exact .inr (.inl ⟨c, encode i, by simpa using ht⟩)
    · exact .inr (.inr (.inl ⟨hv, i, hn, by simpa [hv] using ht⟩))
  · obtain ⟨_, rfl⟩ | ⟨hp, rfl⟩ := unknownOpcode_next.1 hu
    · exact .inr (.inl ⟨.unknownOpcode, w, by simpa [FaultCause.code] using ht⟩)
    · exact .inr (.inr (.inr ⟨hv, hp, w, by simpa [hv] using ht⟩))

/-- Settles O58: no effect, no report and no tick writes a latch or a parameter. -/
theorem stepKeepsKeysAndParameters : Obligations.StepKeepsKeysAndParameters := by
  intro s t h
  obtain ⟨_, rfl⟩ | ⟨c, w, rfl⟩ | ⟨_, i, _, rfl⟩ | ⟨_, _, w, rfl⟩ := step_outcomes h <;> simp

/-- A run of one cycle more is a cycle and the run from there. -/
theorem runCycles_succ_next {n : Nat} : runCycles (n + 1) s = .next t ↔ ∃ u, step s = .next u ∧ runCycles n u = .next t := by
  rw [runCycles]
  cases step s <;> simp

/-! A relation that one cycle keeps is kept by any number of cycles. Both sides are taken through a cycle together. -/

/-- A relation between machines under which a cycle reads the same on both sides, and which everything a cycle does keeps. -/
structure KeptByCycle (R : State → State → Prop) : Prop where
  fault_eq : ∀ {s s'}, R s s' → s'.fault = s.fault
  fetch_eq : ∀ {s s'}, R s s' → s'.fetch = s.fetch
  policy_eq : ∀ {s s'}, R s s' → s'.cfg.unknownPolicy = s.cfg.unknownPolicy
  raises_eq : ∀ {s s'}, R s s' → ∀ i, raisesWhen i s' = raisesWhen i s
  raise : ∀ {s s'}, R s s' → ∀ c w, R { s with fault := ⟨true, c, w, s.pc⟩ } { s' with fault := ⟨true, c, w, s'.pc⟩ }
  effect : ∀ {s s'}, R s s' → ∀ i, raisesWhen i s = none → R (effect i s) (effect i s')
  report : ∀ {s s'}, R s s' →
    ∀ w, R { s.advance with unk := ⟨true, w, s.pc⟩ } { s'.advance with unk := ⟨true, w, s'.pc⟩ }
  tick : ∀ {s s'}, R s s' → R s.timerTick s'.timerTick

namespace KeptByCycle

variable {R : State → State → Prop} (hR : KeptByCycle R)
include hR

theorem raiseFault {c : FaultCause} (h : R s s') (ht : raiseFault s c w = .next t) (ht' : raiseFault s' c w = .next t') :
    R t t' := by
  rw [raiseFault_next] at ht ht'
  exact ht ▸ ht' ▸ hR.raise h _ _

theorem exec (h : R s s') (ht : exec i s = .next t) (ht' : exec i s' = .next t') : R t t' := by
  cases hc : raisesWhen i s with
  | some c =>
    rw [exec_of_raises hc] at ht
    rw [exec_of_raises ((hR.raises_eq h i).trans hc)] at ht'
    exact hR.raiseFault h ht ht'
  | none =>
    rw [exec_of_not_raises hc] at ht
    rw [exec_of_not_raises ((hR.raises_eq h i).trans hc)] at ht'
    exact Host.Outcome.next.inj ht ▸ Host.Outcome.next.inj ht' ▸ hR.effect h i hc

theorem unknownOpcode (h : R s s') (ht : unknownOpcode s w = .next t) (ht' : unknownOpcode s' w = .next t') : R t t' := by
  unfold Machine.unknownOpcode at ht ht'
  rw [hR.policy_eq h] at ht'
  cases hp : s.cfg.unknownPolicy <;> simp only [hp] at ht ht'
  case abort => exact hR.raiseFault h ht ht'
  case skip => exact Host.Outcome.next.inj ht ▸ Host.Outcome.next.inj ht' ▸ hR.report h w

theorem endCycle {o o' : Host.Outcome State Fault Refusal} (h : ∀ u u', o = .next u → o' = .next u' → R u u')
    (ht : endCycle o = .next t) (ht' : endCycle o' = .next t') : R t t' := by
  obtain ⟨u, hu, ht⟩ := endCycle_next.1 ht
  obtain ⟨u', hu', ht'⟩ := endCycle_next.1 ht'
  have hr := h u u' hu hu'
  rw [hR.fault_eq hr] at ht'
  obtain ⟨hv, rfl⟩ | ⟨hv, rfl⟩ := ht
  · obtain rfl : t' = u' := by simpa [hv] using ht'
    exact hr
  · obtain rfl : t' = u'.timerTick := by simpa [hv] using ht'
    exact hR.tick hr

theorem step (h : R s s') (ht : step s = .next t) (ht' : step s' = .next t') : R t t' := by
  unfold Machine.step at ht ht'
  rw [hR.fault_eq h, hR.fetch_eq h] at ht'
  split at ht
  · rw [if_pos ‹_›] at ht'
    exact Host.Outcome.next.inj ht ▸ Host.Outcome.next.inj ht' ▸ h
  · rw [if_neg ‹_›] at ht'
    cases hf : s.fetch with
    | none =>
      simp only [hf] at ht ht'
      exact hR.endCycle (fun _ _ => hR.raiseFault h) ht ht'
    | some w =>
      cases hd : decodeWord w with
      | ok i =>
        simp only [hf, hd] at ht ht'
        exact hR.endCycle (fun _ _ => hR.exec h) ht ht'
      | error e =>
        simp only [hf, hd] at ht ht'
        exact hR.endCycle (fun _ _ => hR.unknownOpcode h) ht ht'

theorem runCycles (n : Nat) (h : R s s') (ht : runCycles n s = .next t) (ht' : runCycles n s' = .next t') : R t t' := by
  induction n generalizing s s' with
  | zero => exact Host.Outcome.next.inj ht ▸ Host.Outcome.next.inj ht' ▸ h
  | succ n ih =>
    obtain ⟨u, hu, ht⟩ := runCycles_succ_next.1 ht
    obtain ⟨u', hu', ht'⟩ := runCycles_succ_next.1 ht'
    exact ih (hR.step h hu hu') ht ht'

end KeptByCycle

end Sys2Proof.Machine

/-! ### Outputs are never read (R18, R20, R24) -/

namespace Sys2Proof.Machine

variable {s s' : State}

/-- The outputs ST, DIRTY and UNK replaced. -/
def State.withOutputs (s : State) (b : Byte) (d : Bool) (u : UnknownRecord) : State := { s with st := b, dirty := d, unk := u }

theorem State.sameButOutputs_iff : s.sameButOutputs s' ↔ ∃ b d u, s' = s.withOutputs b d u :=
  ⟨fun h => ⟨_, _, _, h⟩, by rintro ⟨b, d, u, rfl⟩; rfl⟩

section

variable (s : State) (b : Byte) (d : Bool) (u : UnknownRecord)

@[simp] theorem State.withOutputs_key : (s.withOutputs b d u).key = s.key := rfl

@[simp] theorem State.withOutputs_tick : (s.withOutputs b d u).tick = s.tick := rfl

theorem State.skipIf_withOutputs (c : Bool) : (s.withOutputs b d u).skipIf c = (s.skipIf c).withOutputs b d u := by
  cases c <;> rfl

theorem State.writeBytes_withOutputs (a : Nat) (bs : List Byte) :
    (s.withOutputs b d u).writeBytes a bs = (s.writeBytes a bs).withOutputs b d u := by
  induction bs generalizing s a with
  | nil => rfl
  | cons x bs ih => exact ih (s.writeByte a x) (a + 1)

theorem raisesWhen_withOutputs (i : Instr) : raisesWhen i (s.withOutputs b d u) = raisesWhen i s := by
  cases i <;> rfl

/-- Other outputs make no other effect: an output the instruction writes gets the same value, one it does not is kept. -/
theorem effect_withOutputs (i : Instr) :
    effect i (s.withOutputs b d u) =
      (effect i s).withOutputs (if .soundTimer ∈ writesField i then (effect i s).st else b)
        (if .dirty ∈ writesField i then (effect i s).dirty else d) u := by
  cases i with
  | seVxNN | sneVxNN | seVxVy | sneVxVy | skpVx | sknpVx => exact State.skipIf_withOutputs s.advance b d u _
  | ldBVx | ldMemVx => exact State.writeBytes_withOutputs s.advance b d u _ _
  | ldVxK => by_cases hk : s.key = 0 <;> simp only [effect, State.withOutputs_key, hk, if_true, if_false] <;> rfl
  | _ => rfl

/-- The tick counts ST down, and reads no output to do anything else. -/
theorem State.timerTick_withOutputs :
    (s.withOutputs b d u).timerTick = s.timerTick.withOutputs (s.withOutputs b d u).timerTick.st d u := by
  by_cases hk : s.tick - 1 = 0 <;> simp only [State.timerTick, State.withOutputs_tick, hk, if_true, if_false] <;> rfl

end

theorem sameButOutputs_keptByCycle : KeptByCycle State.sameButOutputs where
  fault_eq h := by rw [h]
  fetch_eq h := by rw [h]; rfl
  policy_eq h := by rw [h]
  raises_eq h i := by rw [h]; exact raisesWhen_withOutputs _ _ _ _ i
  raise h c w := by rw [h]; rfl
  effect h i _ := by
    obtain ⟨b, d, u, rfl⟩ := State.sameButOutputs_iff.1 h
    exact State.sameButOutputs_iff.2 ⟨_, _, _, effect_withOutputs _ b d u i⟩
  report h w := by rw [h]; rfl
  tick h := by
    obtain ⟨b, d, u, rfl⟩ := State.sameButOutputs_iff.1 h
    exact State.sameButOutputs_iff.2 ⟨_, _, _, State.timerTick_withOutputs _ b d u⟩

/-- Settles O60: no raise, effect, report or tick reads an output, so cycles keep `sameButOutputs`. -/
theorem outputsUnobservable : Obligations.OutputsUnobservable := by
  intro n s s' t t' h ht ht'
  exact sameButOutputs_keptByCycle.runCycles n h ht ht'

end Sys2Proof.Machine

/-! ### Stale stack entries are never read (R14) -/

namespace Sys2Proof.Machine

variable {s s' t : State}

/-- The stack entries replaced, SP kept. -/
def State.withStack (s : State) (k : Vector Word 16) : State := { s with stack := k }

section

variable (s : State) (k : Vector Word 16)

@[simp] theorem State.withStack_key : (s.withStack k).key = s.key := rfl

@[simp] theorem State.withStack_tick : (s.withStack k).tick = s.tick := rfl

theorem State.skipIf_withStack (c : Bool) : (s.withStack k).skipIf c = (s.skipIf c).withStack k := by
  cases c <;> rfl

theorem State.writeBytes_withStack (a : Nat) (bs : List Byte) :
    (s.withStack k).writeBytes a bs = (s.writeBytes a bs).withStack k := by
  induction bs generalizing s a with
  | nil => rfl
  | cons x bs ih => exact ih (s.writeByte a x) (a + 1)

theorem State.timerTick_withStack : (s.withStack k).timerTick = s.timerTick.withStack k := by
  by_cases hk : s.tick - 1 = 0 <;> simp only [State.timerTick, State.withStack_tick, hk, if_true, if_false] <;> rfl

theorem raisesWhen_withStack (i : Instr) : raisesWhen i (s.withStack k) = raisesWhen i s := by
  cases i <;> rfl

/-- Only CALL and RET use the stack: every other effect is the same whatever the entries are. -/
theorem effect_withStack {i : Instr} (h : .callStack ∉ writesField i) :
    effect i (s.withStack k) = (effect i s).withStack k := by
  cases i with
  | ret | callAddr => simp [writesField] at h
  | seVxNN | sneVxNN | seVxVy | sneVxVy | skpVx | sknpVx => exact State.skipIf_withStack s.advance k _
  | ldBVx | ldMemVx => exact State.writeBytes_withStack s.advance k _ _
  | ldVxK => by_cases hk : s.key = 0 <;> simp only [effect, State.withStack_key, hk, if_true, if_false] <;> rfl
  | _ => rfl

end

/-- The entries below SP still agree after a change on both sides that leaves the entries alone and SP no higher. -/
theorem State.sameButStale.of_stack_eq (h : s.sameButStale s') (hstack : t.stack = s.stack) (hsp : t.sp ≤ s.sp) :
    t.sameButStale (t.withStack s'.stack) :=
  ⟨rfl, fun k hk => by simpa only [State.stackAt, State.withStack, hstack] using h.2 k (hk.trans_le hsp)⟩

/-- RET reads the entry just below SP, which agrees. -/
theorem State.sameButStale.effect_ret (h : s.sameButStale s') (hsp : s.sp ≠ 0) :
    (effect .ret s).sameButStale (effect .ret s') := by
  have htop : s'.stackAt (s'.sp - 1) = s.stackAt (s.sp - 1) := by
    rw [show s'.sp = s.sp by rw [h.1]]
    exact h.2 _ (by omega)
  have heq : effect .ret s' = (effect .ret s).withStack s'.stack := by
    rw [effect, htop, h.1]
    rfl
  exact heq ▸ h.of_stack_eq rfl (Nat.sub_le _ _)

/-- CALL writes the entry at SP, alike on both sides. -/
theorem State.sameButStale.effect_callAddr (h : s.sameButStale s') (nnn : Addr12) (hsp : s.sp < 16) :
    (effect (.callAddr nnn) s).sameButStale (effect (.callAddr nnn) s') := by
  refine ⟨by rw [h.1]; rfl, fun k hk => ?_⟩
  have hsp' : s'.sp = s.sp := by rw [h.1]
  have hpc' : s'.pc = s.pc := by rw [h.1]
  show (s'.push _).stackAt k = (s.push _).stackAt k
  rw [State.stackAt_push _ _ _ hsp, State.stackAt_push _ _ _ (hsp' ▸ hsp), hsp', State.advance_pc, State.advance_pc, hpc']
  split
  · rfl
  · exact h.2 k (by have : k < s.sp + 1 := hk; omega)

theorem State.sameButStale.effect (h : s.sameButStale s') (i : Instr) (hn : raisesWhen i s = none) :
    (effect i s).sameButStale (effect i s') := by
  by_cases hw : .callStack ∈ writesField i
  · cases i with
    | ret => exact h.effect_ret (by simpa [raisesWhen] using hn)
    | callAddr nnn => exact h.effect_callAddr nnn (by simpa [raisesWhen] using hn)
    | _ => simp [writesField] at hw
  · obtain ⟨hstack, hsp⟩ := effect_writesOnly i s .callStack hw
    have heq : Machine.effect i s' = (Machine.effect i s).withStack s'.stack :=
      (congrArg (Machine.effect i) h.1).trans (effect_withStack s _ hw)
    exact heq ▸ h.of_stack_eq hstack hsp.le

theorem sameButStale_keptByCycle : KeptByCycle State.sameButStale where
  fault_eq h := by rw [h.1]
  fetch_eq h := by rw [h.1]; rfl
  policy_eq h := by rw [h.1]
  raises_eq h i := by rw [h.1]; exact raisesWhen_withStack _ _ i
  raise h c w := by rw [h.1]; exact ⟨rfl, h.2⟩
  effect h i hn := h.effect i hn
  report h w := by rw [h.1]; exact ⟨rfl, h.2⟩
  tick {s s'} h := by
    have heq : s'.timerTick = s.timerTick.withStack s'.stack :=
      (congrArg State.timerTick h.1).trans (s.timerTick_withStack s'.stack)
    exact heq ▸ h.of_stack_eq s.timerTick_stack s.timerTick_sp.le

/-- Settles O59: RET reads the one entry just below SP and nothing else reads the stack, so cycles keep `sameButStale`; the
bound on SP is not needed. -/
theorem staleEntriesUnobservable : Obligations.StaleEntriesUnobservable := by
  intro n s s' t t' _ h ht ht'
  exact sameButStale_keptByCycle.runCycles n h ht ht'

end Sys2Proof.Machine

/-! ### The invariant (R4, R23, R24, R27) -/

namespace Sys2Proof.Machine

variable {i : Instr} {s t : State}

theorem FaultCause.code_range (c : FaultCause) : 1 ≤ c.code.toNat ∧ c.code.toNat ≤ 6 := by
  cases c <;> decide

/-- An effect moves SP by at most one entry, and within 0..16 (R15). -/
theorem effect_sp_le (h : s.sp ≤ 16) (hn : raisesWhen i s = none) : (effect i s).sp ≤ 16 := by
  by_cases hw : .callStack ∈ writesField i
  · cases i with
    | ret => exact (Nat.sub_le _ _).trans h
    | callAddr =>
      have hsp : s.sp < 16 := by simpa [raisesWhen] using hn
      exact hsp
    | _ => simp [writesField] at hw
  · exact (effect_writesOnly i s .callStack hw).2 ▸ h

/-- The two stores stay within MEM_SIZE, and nothing else touches memory. -/
theorem effect_memory_wf (h : Memory.wf s.cfg s.mem) (hn : raisesWhen i s = none) : Memory.wf s.cfg (effect i s).mem := by
  cases i with
  | ldBVx | ldMemVx =>
    simp only [raisesWhen, ite_eq_right_iff, reduceCtorEq, imp_false, not_lt] at hn
    refine State.wf_writeBytes s.advance _ h ?_
    simp only [State.dataAddr_eq, length_bcdDigits, State.length_regBytes, State.advance_cfg]
    omega
  | seVxNN | sneVxNN | seVxVy | sneVxVy | skpVx | sknpVx =>
    rw [effect, State.skipIf_mem]
    exact h
  | ldVxK =>
    rw [effect]
    split <;> exact h
  | _ => exact h

theorem State.timerTick_tick_range (h : 1 ≤ s.tick ∧ s.tick ≤ s.cfg.tickPeriod) :
    1 ≤ s.timerTick.tick ∧ s.timerTick.tick ≤ s.cfg.tickPeriod := by
  unfold State.timerTick
  split
  · exact ⟨h.1.trans h.2, le_rfl⟩
  · simp only
    omega

theorem State.Inv.timerTick (h : s.Inv) : s.timerTick.Inv := by
  obtain ⟨hcfg, hsp, htick, hmem, hfault, hunk⟩ := h
  simp only [State.Inv, State.faultLegal, State.reportLegal, State.timerTick_cfg, State.timerTick_sp,
    State.timerTick_mem, State.timerTick_fault, State.timerTick_pc, State.timerTick_unk]
  exact ⟨hcfg, hsp, State.timerTick_tick_range htick, hmem, hfault, hunk⟩

theorem State.Inv.raise (h : s.Inv) (c : FaultCause) (w : Word) :
    ({ s with fault := ⟨true, c.code, w, s.pc⟩ } : State).Inv := by
  obtain ⟨hcfg, hsp, htick, hmem, _, hunk⟩ := h
  exact ⟨hcfg, hsp, htick, hmem, .inr ⟨rfl, c.code_range.1, c.code_range.2, rfl⟩, hunk⟩

/-- In a running machine that meets the invariant FAULT is as reset leaves it. -/
theorem State.faultLegal.eq_none (h : s.faultLegal) (hv : s.fault.valid = false) : s.fault = FaultRecord.none := by
  obtain h | ⟨hv', _⟩ := h
  · exact h
  · simp [hv] at hv'

theorem State.Inv.effect (h : s.Inv) (hv : s.fault.valid = false) (hn : raisesWhen i s = none) : (effect i s).Inv := by
  obtain ⟨hcfg, hsp, htick, hmem, hfault, hunk⟩ := h
  simp only [State.Inv, State.faultLegal, State.reportLegal, effect_cfg, effect_tick, effect_fault, effect_unk]
  exact ⟨hcfg, effect_sp_le hsp hn, htick, effect_memory_wf hmem hn, .inl (hfault.eq_none hv), hunk⟩

theorem State.Inv.report (h : s.Inv) (hv : s.fault.valid = false) (hp : s.cfg.unknownPolicy = .skip) (w : Word) :
    ({ s.advance with unk := ⟨true, w, s.pc⟩ } : State).Inv := by
  obtain ⟨hcfg, hsp, htick, hmem, hfault, _⟩ := h
  exact ⟨hcfg, hsp, htick, hmem, .inl (hfault.eq_none hv), .inr ⟨rfl, hp⟩⟩

/-- Settles O17: each of the outcomes of a step keeps the invariant. -/
theorem invariantKeptByStep : Obligations.InvariantKeptByStep := by
  intro s t h ht
  obtain ⟨_, rfl⟩ | ⟨c, w, rfl⟩ | ⟨hv, i, hn, rfl⟩ | ⟨hv, hp, w, rfl⟩ := step_outcomes ht
  · exact h
  · exact h.raise c w
  · exact (h.effect hv hn).timerTick
  · exact (h.report hv hp w).timerTick

/-! ### Reset and the host operations -/

theorem State.resetWith_inv {c : Config} (h : c.wellFormed = true) : (State.resetWith c).Inv := by
  have htick : 1 ≤ c.tickPeriod := by
    simp only [Config.wellFormed, Bool.and_eq_true, Config.tickPeriodOk, decide_eq_true_eq] at h
    exact h.1.2
  exact ⟨h, Nat.zero_le _, ⟨htick, le_rfl⟩, Memory.wf_nil, .inl rfl, .inl rfl⟩

/-- Settles O18: the standard parameters are legal, and the invariant holds at reset under all legal ones. -/
theorem invariantHoldsAtReset : Obligations.InvariantHoldsAtReset :=
  ⟨State.resetWith_inv (by decide), fun _ => State.resetWith_inv⟩

theorem State.inResetState.setKey (h : s.inResetState) (k : Reg) (pressed : Bool) : (setKey k pressed s).inResetState :=
  congrArg (fun u : State => { u with key := (Machine.setKey k pressed s).key }) h

theorem State.inResetState.clearDirty (h : s.inResetState) : (clearDirty s).inResetState :=
  congrArg Machine.clearDirty h

theorem Session.Inv.loadRom {p q : Session} {a : Reply} {bytes : List Byte} (h : p.Inv)
    (hq : loadRom bytes p = .next (q, a)) : q.Inv := by
  obtain ⟨hp, ⟨_, hr⟩ | ⟨hfit, hr⟩⟩ := loadRom_next.1 hq <;> cases hr
  · exact ⟨h.1, fun _ => h.2 (by simp [hp])⟩
  · obtain ⟨⟨hcfg, hsp, htick, hmem, hfault, hunk⟩, _⟩ := h
    have hload := State.wf_writeBytes p.machine bytes hmem hfit
    rw [State.writeBytes_eq]
    exact ⟨⟨hcfg, hsp, htick, hload, hfault, hunk⟩, fun hc => absurd rfl hc⟩

theorem Session.Inv.cycleOp {p q : Session} {a : Reply} (h : p.Inv) (hq : cycleOp p = .next (q, a)) : q.Inv := by
  obtain ⟨_, t, ht, hr⟩ := cycleOp_next.1 hq
  cases hr
  exact ⟨invariantKeptByStep _ _ h.1 ht, fun hc => absurd rfl hc⟩

theorem hostReset_inv (h : s.Inv) : (hostReset s).Inv := State.resetWith_inv h.1

/-- Every host operation keeps the invariant: Cycle by the step lemma, and those that touch only KEY and DIRTY because no part
of it speaks of them. -/
theorem Session.Inv.hostStep {op : HostOp} {p q : Session} {a : Reply} (h : p.Inv)
    (hq : hostStep op p = .next (q, a)) : q.Inv := by
  cases op with
  | reset => cases hq; exact ⟨hostReset_inv h.1, fun _ => rfl⟩
  | loadRom => exact h.loadRom hq
  | cycle => exact h.cycleOp hq
  | setKey k pressed =>
    cases hq
    exact ⟨h.1, fun hp => (h.2 hp).setKey k pressed⟩
  | clearDirty =>
    cases hq
    exact ⟨h.1, fun hp => (h.2 hp).clearDirty⟩
  | getPixel row col =>
    rw [Machine.hostStep] at hq
    split at hq <;> cases hq
    exact h
  | dirty | soundActive | fault | unknownReport => cases hq; exact h

theorem hostRun_cons_next {op : HostOp} {ops : List HostOp} {p q : Session} :
    hostRun (op :: ops) p = .next q ↔ ∃ r, hostStep op p = .next r ∧ hostRun ops r.1 = .next q := by
  rw [hostRun]
  cases hostStep op p <;> simp

/-- Settles O19, by induction on the operations. -/
theorem invariantKeptByHostRun : Obligations.InvariantKeptByHostRun := by
  intro ops p q h hq
  induction ops generalizing p with
  | nil => cases hq; exact h
  | cons op ops ih =>
    obtain ⟨⟨u, _⟩, hu, hq⟩ := hostRun_cons_next.1 hq
    exact ih u (h.hostStep hu) hq

/-- The operations but Reset, LoadROM and Cycle leave the phase and everything but KEY and DIRTY alone. -/
theorem hostStep_touches {op : HostOp} {p q : Session} {a : Reply} (hr : op ≠ .reset) (hc : op ≠ .cycle)
    (hl : ∀ bytes, op ≠ .loadRom bytes) (h : hostStep op p = .next (q, a)) :
    q = { p with machine := { p.machine with key := q.machine.key, dirty := q.machine.dirty } } := by
  cases op with
  | reset => exact absurd rfl hr
  | cycle => exact absurd rfl hc
  | loadRom bytes => exact absurd rfl (hl bytes)
  | getPixel row col =>
    rw [hostStep] at h
    split at h <;> cases h
    rfl
  | _ => cases h; rfl

/-- `SetKey(k, pressed)` writes the latch k and no other. -/
theorem keyPressed_setKey (k j : Reg) (pressed : Bool) (s : State) :
    (setKey k pressed s).keyPressed j.val = if j = k then pressed else s.keyPressed j.val := by
  by_cases h : j = k
  · subst h
    cases pressed <;> simp [State.keyPressed, setKey]
  · have hv : j.val ≠ k.val := Fin.val_ne_of_ne h
    cases pressed <;> simp [State.keyPressed, setKey, h, hv]

/-- Settles O23, operation by operation, and latch by latch for SetKey. -/
theorem hostTouchesOnlyKeysAndDirty : Obligations.HostTouchesOnlyKeysAndDirty :=
  ⟨fun _ _ _ _ => hostStep_touches,
    fun k pressed p => ⟨setKey k pressed p.machine, rfl, rfl, fun j => keyPressed_setKey k j pressed p.machine⟩⟩

end Sys2Proof.Machine

/-! ### Registers, PC and the timers -/

namespace Sys2Proof.Machine

variable {i : Instr} {s t : State}

/-- Settles O16: without a jump, a skip or a rewind PC is the fetch's advance. -/
theorem plainInstructionsAdvanceByTwo : Obligations.PlainInstructionsAdvanceByTwo := by
  intro i s t hi _ h ht
  obtain ⟨_, rfl⟩ := eq_effect_of_running h ht
  cases i with
  | ret | jpAddr | callAddr | seVxNN | sneVxNN | seVxVy | sneVxVy | jpV0Addr | skpVx | sknpVx | ldVxK => cases hi
  | ldBVx | ldMemVx => simp [effect]
  | _ => rfl

theorem flagByte_eq_zero_or_one (b : Bool) : flagByte b = 0 ∨ flagByte b = 1 := by
  cases b <;> simp [flagByte]

/-- Each of the six flag instructions writes VF last, and what it writes is a truth value. -/
theorem effect_flag (h : writesFlag i = true) : ∃ b, (effect i s).getV regVF = flagByte b := by
  cases i with
  | addVxVy | subVxVy | shrVx | subnVxVy | shlVx =>
    exact ⟨_, (State.getV_setResultThenFlag _ _ _ _ _).trans (if_pos rfl)⟩
  | drwVxVyN => exact ⟨_, (State.getV_setV _ _ _ _).trans (if_pos rfl)⟩
  | _ => cases h

/-- Settles O39: a machine that still runs had the effect, and VF holds its flag. -/
theorem flagWritersLeaveZeroOrOne : Obligations.FlagWritersLeaveZeroOrOne := by
  intro i s t hi _ h ht
  obtain ⟨_, rfl⟩ := eq_effect_of_running h ht
  obtain ⟨b, hb⟩ := effect_flag (s := s) hi
  rw [hb]
  exact flagByte_eq_zero_or_one b

/-- An effect leaves every register alone that is neither a destination nor VF in a flag instruction. -/
theorem effect_getV {r : Reg} (hr : isDestination i r = false) (hf : writesFlag i = true → r ≠ regVF) :
    (effect i s).getV r = s.getV r := by
  by_cases hw : .regs ∈ writesField i
  · cases i with
    | ldVxNN x | addVxNN x | ldVxVy x | orVxVy x | andVxVy x | xorVxVy x | rndVxNN x | ldVxDT x =>
      have hx : r ≠ x := by simpa [isDestination] using hr
      exact (State.getV_setV _ _ _ _).trans (if_neg hx)
    | ldVxK x =>
      have hx : r ≠ x := by simpa [isDestination] using hr
      rw [effect]
      split
      · rfl
      · exact (State.getV_setV _ _ _ _).trans (if_neg hx)
    | addVxVy x | subVxVy x | shrVx x | subnVxVy x | shlVx x =>
      have hx : r ≠ x := by simpa [isDestination] using hr
      exact (State.getV_setResultThenFlag _ _ _ _ _).trans ((if_neg (hf rfl)).trans (if_neg hx))
    | drwVxVyN => exact (State.getV_setV _ _ _ _).trans (if_neg (hf rfl))
    | ldVxMem x =>
      have hx : ¬r ≤ x := by simpa [isDestination] using hr
      exact (State.getV_loadRegs _ _ _).trans (if_neg hx)
    | _ => simp [writesField] at hw
  · exact effect_writesOnly i s .regs hw r

/-- Settles O40: a raise writes no register, and an effect only its destinations and its flag. -/
theorem onlyDestinationsAndFlagChange : Obligations.OnlyDestinationsAndFlagChange := by
  intro i s t r h hr hf
  obtain ⟨_, _, rfl⟩ | ⟨_, rfl⟩ := exec_cases h
  · rfl
  · exact effect_getV hr hf

/-- DT is written by LD DT,Vx alone. -/
theorem exec_dt (h : exec i s = .next t) (hi : ∀ x, i ≠ .ldDTVx x) : t.dt = s.dt := by
  refine exec_same (f := .delayTimer) h (by decide) ?_
  cases i with
  | ldDTVx x => exact absurd rfl (hi x)
  | _ => simp [writesField]

/-- ST is written by LD ST,Vx alone. -/
theorem exec_st (h : exec i s = .next t) (hi : ∀ x, i ≠ .ldSTVx x) : t.st = s.st := by
  refine exec_same (f := .soundTimer) h (by decide) ?_
  cases i with
  | ldSTVx x => exact absurd rfl (hi x)
  | _ => simp [writesField]

/-- No effect reads ST: with another ST at the start the effect is the same but for ST. -/
theorem effect_with_st (i : Instr) (s : State) (b : Byte) :
    effect i { s with st := b } = { effect i s with st := (effect i { s with st := b }).st } := by
  have hdirty : (if .dirty ∈ writesField i then (effect i s).dirty else s.dirty) = (effect i s).dirty := by
    split
    · rfl
    · exact (effect_writesOnly i s .dirty ‹_›).symm
  have heq : effect i { s with st := b } = (effect i s).withOutputs _ (effect i s).dirty (effect i s).unk :=
    (effect_withOutputs s b s.dirty s.unk i).trans (by rw [hdirty, effect_unk])
  rw [heq]
  rfl

/-- No instruction reads ST, one that raises included. -/
theorem exec_with_st (b : Byte) (h : exec i s = .next t) :
    ∃ t', exec i { s with st := b } = .next t' ∧ t' = { t with st := t'.st } := by
  have hraises : raisesWhen i { s with st := b } = raisesWhen i s := raisesWhen_withOutputs s b s.dirty s.unk i
  obtain ⟨c, hc, rfl⟩ | ⟨hn, rfl⟩ := exec_cases h
  · exact ⟨_, exec_of_raises (hraises.trans hc), rfl⟩
  · exact ⟨_, exec_of_not_raises (hraises.trans hn), effect_with_st i s b⟩

/-- Settles O56, sentence by sentence of R20. -/
theorem timersSetOnlyByTheirLoads : Obligations.TimersSetOnlyByTheirLoads := by
  refine ⟨fun i s t h => ⟨exec_dt h, exec_st h⟩, fun x s => ⟨⟨_, rfl, rfl⟩, ⟨_, rfl, rfl⟩, _, rfl, ?_⟩,
    fun i s t b => exec_with_st b, fun p => ?_, fun c => ⟨rfl, rfl⟩⟩
  · exact (State.getV_setV _ _ _ _).trans (if_pos rfl)
  · simp [hostStep, soundActive, bne, beq_eq_decide]

end Sys2Proof.Machine

/-! ### The fetch and the stores (20_memory.md) -/

namespace Sys2Proof.Machine

variable {i : Instr} {s : State} {a a' : Nat} {bs : List Byte} {hi lo : Byte}

/-- Settles O8: the two bytes of `readWord`, as a number. -/
theorem fetchIsBigEndianWithinMemory : Obligations.FetchIsBigEndianWithinMemory := by
  intro s w
  rw [State.fetch_some, State.readWord, ← BitVec.toNat_inj, wordOfBytes_toNat, eq_comm (b := w.toNat)]

/-- A running machine with no word to fetch raises FetchBound (R61). -/
theorem step_of_fetch_none (hr : s.running) (hf : s.fetch = none) : step s = raiseFault s .fetchBound 0 := by
  have hv : s.fault.valid = false := hr
  rw [step, hv, hf]
  rfl

/-- Settles O9: past the memory bound there is no word to fetch. -/
theorem fetchPastMemoryRaises : Obligations.FetchPastMemoryRaises :=
  fun _ hr hm => step_of_fetch_none hr (State.fetch_none.2 hm)

/-- Storing bytes keeps every byte below and above them. -/
theorem State.readByte_writeBytes_outside (s : State) (hw : Memory.wf s.cfg s.mem) (hm : a + bs.length ≤ s.cfg.memSize)
    (ha : a' < a ∨ a + bs.length ≤ a') : (s.writeBytes a bs).readByte a' = s.readByte a' := by
  rw [s.readByte_writeBytes bs hw hm]
  obtain hlt | hge := ha
  · exact if_neg (by omega)
  · rw [List.getElem?_eq_none (by omega), Option.getD_none, ite_self]

/-- The fetch reads the two bytes stored at PC, the first one as the high byte (R32, R41). -/
theorem State.fetch_writeBytes_pc (s : State) (hw : Memory.wf s.cfg s.mem) (hm : s.pc.toNat + bs.length ≤ s.cfg.memSize)
    (hhi : bs[0]? = some hi) (hlo : bs[1]? = some lo) :
    (s.writeBytes s.pc.toNat bs).fetch = some (wordOfBytes hi lo) := by
  have hlen : 1 < bs.length := (List.getElem?_eq_some_iff.1 hlo).1
  rw [State.fetch_some, State.writeBytes_pc, State.writeBytes_cfg, State.readWord]
  refine ⟨by omega, ?_⟩
  simp [s.readByte_writeBytes bs hw hm, hhi, hlo]

theorem tableWord_sixteen (w : Nat) : tableWord 16 w = BitVec.ofNat 16 w := by
  simp [tableWord, ← BitVec.toNat_inj]

/-- Within memory a word is placed by storing its two bytes at PC. -/
theorem State.withFetchWord_eq (w : Nat) (h : s.pc.toNat + 1 < s.cfg.memSize) :
    s.withFetchWord 16 w = s.writeBytes s.pc.toNat (bytesOfWord (BitVec.ofNat 16 w)) := by
  rw [State.withFetchWord, tableWord_sixteen, State.placeWord, if_pos h]

/-- Settles O26: the placed word is its high byte and its low byte, stored where the fetch reads. -/
theorem placedWordIsFetched : Obligations.PlacedWordIsFetched := by
  intro s w hw hm
  rw [State.withFetchWord_eq w hm]
  refine ⟨?_, State.writeBytes_eq _ _ _⟩
  rw [s.fetch_writeBytes_pc (bs := bytesOfWord (BitVec.ofNat 16 w)) hw hm rfl rfl, wordOfBytes_high_low]

/-- An instruction that writes memory stores its bytes at I, all of them within memory (R35, R98, R100). -/
theorem effect_store (hmem : .memory ∈ writesField i) (hn : raisesWhen i s = none) :
    ∃ bs : List Byte, bs.length = storedLength i ∧ s.dataAddr 0 + bs.length ≤ s.cfg.memSize ∧
      effect i s = s.advance.writeBytes (s.dataAddr 0) bs := by
  cases i with
  | ldBVx x => exact ⟨bcdDigits (s.getV x), rfl, by simpa [raisesWhen] using hn, rfl⟩
  | ldMemVx x => exact ⟨s.regBytes x, s.length_regBytes x, by simpa [raisesWhen, Nat.add_assoc] using hn, rfl⟩
  | _ => simp [writesField] at hmem

/-- Settles O46: a store writes the bytes it names, and nothing else writes memory, a raise included. -/
theorem bytesOutsideTheStoreKept : Obligations.BytesOutsideTheStoreKept := by
  intro i s t a hw h ha
  by_cases hmem : .memory ∈ writesField i
  · obtain ⟨_, _, rfl⟩ | ⟨hn, rfl⟩ := exec_cases h
    · rfl
    · obtain ⟨bs, hlen, hm, heq⟩ := effect_store hmem hn
      rw [heq]
      exact s.advance.readByte_writeBytes_outside hw hm (hlen ▸ ha)
  · exact exec_same (f := .memory) h (by decide) hmem a

/-- Below 0xFFFE the fetch's advance does not wrap (R61). -/
theorem State.advance_pc_toNat (h : s.pc.toNat + 2 < 2 ^ 16) : s.advance.pc.toNat = s.pc.toNat + 2 :=
  BitVec.toNat_add_of_lt h

/-- Settles O47: V0 and V1 are the first two bytes of the block, and I, where they are stored, is the advanced PC. -/
theorem storedWordIsFetchedNext : Obligations.StoredWordIsFetchedNext := by
  intro s x hw hx hpc hm
  have hn : raisesWhen (.ldMemVx x) s = none := if_neg (Nat.not_lt.2 hm)
  have hpc' : s.dataAddr 0 = s.advance.pc.toNat := by
    have hlt : s.dataAddr 0 < 2 ^ 16 := s.i.isLt
    rw [hpc] at hlt
    exact hpc.trans (State.advance_pc_toNat hlt).symm
  refine ⟨effect (.ldMemVx x) s, exec_of_not_raises hn, ?_⟩
  rw [effect, hpc']
  refine s.advance.fetch_writeBytes_pc hw ?_ (State.getElem?_regBytes x 0 (Fin.zero_le x)) (State.getElem?_regBytes x 1 hx)
  rw [← hpc', State.length_regBytes]
  exact hm

end Sys2Proof.Machine

/-! ### The decoder, the encoder and the opcode table (30_encoding.md) -/

namespace Sys2Proof

variable {w : Word} {i : Instr} {fam : BitVec 4} {n : Nibble} {nn : Byte} {r : OpcodeRow}

/-! A word is its fields put together (R46, R47). -/

theorem formatA_fields (h : fieldFam w = fam) : formatA fam (fieldNNN w) = w := by
  rw [← h, formatA, fieldFam, fieldNNN, BitVec.extractLsb'_append_extractLsb'_eq_extractLsb' (by rfl)]
  exact BitVec.extractLsb'_eq_self

theorem formatXB_fields (h : fieldFam w = fam) (hnn : fieldNN w = nn) : formatXB fam (fieldX w) nn = w := by
  rw [← h, ← hnn, formatXB, fieldFam, fieldX, fieldNN, BitVec.ofFin_toFin,
    BitVec.extractLsb'_append_extractLsb'_eq_extractLsb' (by rfl),
    BitVec.extractLsb'_append_extractLsb'_eq_extractLsb' (by rfl)]
  exact BitVec.extractLsb'_eq_self

theorem formatXYN_fields (h : fieldFam w = fam) (hn : fieldN w = n) : formatXYN fam (fieldX w) (fieldY w) n = w := by
  rw [← h, ← hn, formatXYN, fieldFam, fieldX, fieldY, fieldN, BitVec.ofFin_toFin, BitVec.ofFin_toFin,
    BitVec.extractLsb'_append_extractLsb'_eq_extractLsb' (by rfl),
    BitVec.extractLsb'_append_extractLsb'_eq_extractLsb' (by rfl),
    BitVec.extractLsb'_append_extractLsb'_eq_extractLsb' (by rfl)]
  exact BitVec.extractLsb'_eq_self

/-! ### The ignored bits (R53) -/

theorem formatXYN_clear_n (x y : Reg) : formatXYN fam x y n &&& 0xFFF0#16 = formatXYN fam x y 0 := by
  rw [formatXYN, show (0xFFF0#16 : BitVec 16) = 0xF#4 ++ 0xF#4 ++ 0xF#4 ++ 0#4 from rfl, BitVec.and_append,
    BitVec.and_append, BitVec.and_append, and_ones4, and_ones4, and_ones4, BitVec.and_zero]
  rfl

theorem formatXYN_clear_y (x y : Reg) : formatXYN fam x y n &&& 0xFF0F#16 = formatXYN fam x 0 n := by
  rw [formatXYN, show (0xFF0F#16 : BitVec 16) = 0xF#4 ++ 0xF#4 ++ 0#4 ++ 0xF#4 from rfl, BitVec.and_append,
    BitVec.and_append, BitVec.and_append, and_ones4, and_ones4, and_ones4, BitVec.and_zero]
  rfl

/-- Families 0x5 and 0x9 ignore N. -/
theorem clearIgnoredBits_familyXY (h : fieldFam w = fam) (hf : fam = 0x5#4 ∨ fam = 0x9#4) :
    clearIgnoredBits w = formatXYN fam (fieldX w) (fieldY w) 0 := by
  rw [clearIgnoredBits, if_pos (h ▸ hf), ← formatXYN_clear_n (n := fieldN w), formatXYN_fields h rfl]

/-- SHR and SHL ignore Y. -/
theorem clearIgnoredBits_shift (h : fieldFam w = 0x8#4) (hn : fieldN w = n) (hs : n = 0x6#4 ∨ n = 0xE#4) :
    clearIgnoredBits w = formatXYN 0x8#4 (fieldX w) 0 n := by
  rw [clearIgnoredBits, if_neg (by rw [h]; decide), if_pos ⟨h, hn ▸ hs⟩, ← formatXYN_clear_y (y := fieldY w),
    formatXYN_fields h hn]

/-- The other families ignore nothing. -/
theorem clearIgnoredBits_of_family (h : fieldFam w = fam) (hf : fam ∉ [0x5#4, 0x8#4, 0x9#4]) : clearIgnoredBits w = w := by
  simp only [List.mem_cons, List.not_mem_nil, or_false, not_or] at hf
  obtain ⟨h5, h8, h9⟩ := hf
  rw [clearIgnoredBits, h, if_neg (not_or.2 ⟨h5, h9⟩), if_neg fun hs => h8 hs.1]

/-- Family 0x8 ignores nothing outside the shifts. -/
theorem clearIgnoredBits_family8 (h : fieldFam w = 0x8#4) (hn : fieldN w = n) (hs : n ∉ [0x6#4, 0xE#4]) :
    clearIgnoredBits w = w := by
  rw [clearIgnoredBits, h, hn, if_neg (by decide), if_neg fun hc => hs (by simpa using hc.2)]

theorem not_shift_of_unknownSub8 :
    ∀ n ∈ [0x8#4, 0x9#4, 0xA#4, 0xB#4, 0xC#4, 0xD#4, 0xF#4], n ∉ [0x6#4, 0xE#4] := by decide

/-- No bit of an unknown word is an ignored bit. -/
theorem clearIgnoredBits_of_unknownWord (h : Machine.unknownWord w) : clearIgnoredBits w = w := by
  obtain ⟨hf, _, _⟩ | ⟨hf, hn⟩ | ⟨hf, _⟩ | ⟨hf, _⟩ := h
  · exact clearIgnoredBits_of_family hf (by decide)
  · exact clearIgnoredBits_family8 hf rfl (not_shift_of_unknownSub8 _ hn)
  · exact clearIgnoredBits_of_family hf (by decide)
  · exact clearIgnoredBits_of_family hf (by decide)

/-! ### The opcode table (R50, R52) -/

open Laws.SelectsRow in
theorem encode_selectsRow : ∀ i : Instr, Statement i
  | .cls => cls | .ret => ret | .jpAddr _ => jpAddr _ | .callAddr _ => callAddr _ | .seVxNN _ _ => seVxNN _ _
  | .sneVxNN _ _ => sneVxNN _ _ | .seVxVy _ _ => seVxVy _ _ | .ldVxNN _ _ => ldVxNN _ _
  | .addVxNN _ _ => addVxNN _ _ | .ldVxVy _ _ => ldVxVy _ _ | .orVxVy _ _ => orVxVy _ _
  | .andVxVy _ _ => andVxVy _ _ | .xorVxVy _ _ => xorVxVy _ _ | .addVxVy _ _ => addVxVy _ _
  | .subVxVy _ _ => subVxVy _ _ | .shrVx _ => shrVx _ | .subnVxVy _ _ => subnVxVy _ _ | .shlVx _ => shlVx _
  | .sneVxVy _ _ => sneVxVy _ _ | .ldIAddr _ => ldIAddr _ | .jpV0Addr _ => jpV0Addr _
  | .rndVxNN _ _ => rndVxNN _ _ | .drwVxVyN _ _ _ => drwVxVyN _ _ _ | .skpVx _ => skpVx _
  | .sknpVx _ => sknpVx _ | .ldVxDT _ => ldVxDT _ | .ldVxK _ => ldVxK _ | .ldDTVx _ => ldDTVx _
  | .ldSTVx _ => ldSTVx _ | .addIVx _ => addIVx _ | .ldFVx _ => ldFVx _ | .ldBVx _ => ldBVx _
  | .ldMemVx _ => ldMemVx _ | .ldVxMem _ => ldVxMem _

theorem fieldFam_and (a b : Word) : fieldFam (a &&& b) = fieldFam a &&& fieldFam b := BitVec.extractLsb'_and

theorem fieldN_and (a b : Word) : fieldN (a &&& b) = fieldN a &&& fieldN b := BitVec.extractLsb'_and

theorem fieldNN_and (a b : Word) : fieldNN (a &&& b) = fieldNN a &&& fieldNN b := BitVec.extractLsb'_and

/-- Every row fixes FAM, and in the families that R52 restricts also the part of the word R49 dispatches on, at a value that
R52 leaves out. -/
theorem opcodeTable_fixes : ∀ r ∈ opcodeTable, fieldFam r.mask = 0xF#4 ∧
    (fieldFam r.value = 0x0#4 → r.mask = 0xFFFF#16 ∧ (r.value = 0x00E0#16 ∨ r.value = 0x00EE#16)) ∧
    (fieldFam r.value = 0x8#4 →
      fieldN r.mask = 0xF#4 ∧ fieldN r.value ∉ [0x8#4, 0x9#4, 0xA#4, 0xB#4, 0xC#4, 0xD#4, 0xF#4]) ∧
    (fieldFam r.value = 0xE#4 → fieldNN r.mask = 0xFF#8 ∧ fieldNN r.value ∈ [0x9E#8, 0xA1#8]) ∧
    (fieldFam r.value = 0xF#4 → fieldNN r.mask = 0xFF#8 ∧
      fieldNN r.value ∈ [0x07#8, 0x0A#8, 0x15#8, 0x18#8, 0x1E#8, 0x29#8, 0x33#8, 0x55#8, 0x65#8]) := by decide

/-- A word that selects a row is not unknown: the word and the row agree in every field that R52 looks at. -/
theorem not_unknownWord_of_selects (hr : r ∈ opcodeTable) (h : w &&& r.mask = r.value) : ¬ Machine.unknownWord w := by
  obtain ⟨hmask, h0, h8, hE, hF⟩ := opcodeTable_fixes r hr
  have hfam : fieldFam r.value = fieldFam w := by rw [← h, fieldFam_and, hmask, and_ones4]
  have hN (hm : fieldN r.mask = 0xF#4) : fieldN r.value = fieldN w := by rw [← h, fieldN_and, hm, and_ones4]
  have hNN (hm : fieldNN r.mask = 0xFF#8) : fieldNN r.value = fieldNN w := by rw [← h, fieldNN_and, hm, and_ones8]
  rintro (⟨hf, hcls, hret⟩ | ⟨hf, hu⟩ | ⟨hf, hu⟩ | ⟨hf, hu⟩)
  · obtain ⟨hm, hv⟩ := h0 (hfam.trans hf)
    have hw : r.value = w := by rw [← h, hm]; exact BitVec.and_allOnes
    exact hv.elim (hw ▸ hcls) (hw ▸ hret)
  · obtain ⟨hm, hv⟩ := h8 (hfam.trans hf)
    exact hv (hN hm ▸ hu)
  · obtain ⟨hm, hv⟩ := hE (hfam.trans hf)
    exact hu (hNN hm ▸ hv)
  · obtain ⟨hm, hv⟩ := hF (hfam.trans hf)
    exact hu (hNN hm ▸ hv)

theorem not_unknownWord_encode (i : Instr) : ¬ Machine.unknownWord (encode i) := by
  obtain ⟨_, hr, hs⟩ := encode_selectsRow i
  exact not_unknownWord_of_selects (List.mem_of_getElem? hr) hs

/-- A word selects at most one row. -/
theorem selectedRow_unique {p q : OpcodeRow} (hp : p ∈ opcodeTable) (hq : q ∈ opcodeTable) (hwp : w &&& p.mask = p.value)
    (hwq : w &&& q.mask = q.value) : p = q :=
  List.Pairwise.forall_of_forall_of_flip (R := fun p q => w &&& p.mask = p.value → w &&& q.mask = q.value → p = q)
    (fun _ _ _ _ => rfl) (opcodeTable_disjoint.imp fun h hp hq => absurd hq (row_unique h hp))
    (opcodeTable_disjoint.imp fun h hq hp => absurd hq (row_unique h hp)) hp hq hwp hwq

/-! ### What the decoder's answer says of the word -/

/-- An instruction is the word's but for its ignored bits and the word selects its row; a rejected word is unknown. -/
def DecoderAnswer (w : Word) : Except DecodeError Instr → Prop
  | .ok i => encode i = clearIgnoredBits w ∧ ∃ r, opcodeTable[rowIndex i]? = some r ∧ w &&& r.mask = r.value
  | .error _ => Machine.unknownWord w

/-- A branch of the decoder. -/
theorem DecoderAnswer.ite {c : Prop} [Decidable c] {a b : Except DecodeError Instr} (ha : c → DecoderAnswer w a)
    (hb : ¬ c → DecoderAnswer w b) : DecoderAnswer w (if c then a else b) := by
  split
  case isTrue h => exact ha h
  case isFalse h => exact hb h

/-- Where nothing is ignored, the word is the encoding of the instruction it decodes to. -/
theorem DecoderAnswer.of_encode (h : encode i = w) (hc : clearIgnoredBits w = w) : DecoderAnswer w (.ok i) :=
  ⟨h.trans hc.symm, h ▸ encode_selectsRow i⟩

theorem DecoderAnswer.of_formatA (h : fieldFam w = fam) (hi : encode i = formatA fam (fieldNNN w))
    (hf : fam ∉ [0x5#4, 0x8#4, 0x9#4] := by decide) : DecoderAnswer w (.ok i) :=
  .of_encode (hi.trans (formatA_fields h)) (clearIgnoredBits_of_family h hf)

theorem DecoderAnswer.of_formatXB (h : fieldFam w = fam) (hnn : fieldNN w = nn) (hi : encode i = formatXB fam (fieldX w) nn)
    (hf : fam ∉ [0x5#4, 0x8#4, 0x9#4] := by decide) : DecoderAnswer w (.ok i) :=
  .of_encode (hi.trans (formatXB_fields h hnn)) (clearIgnoredBits_of_family h hf)

/-- A row of family 0x8 that is no shift. -/
theorem DecoderAnswer.of_family8 (h : fieldFam w = 0x8#4) (hn : fieldN w = n)
    (hi : encode i = formatXYN 0x8#4 (fieldX w) (fieldY w) n) (hs : n ∉ [0x6#4, 0xE#4] := by decide) :
    DecoderAnswer w (.ok i) :=
  .of_encode (hi.trans (formatXYN_fields h hn)) (clearIgnoredBits_family8 h hn hs)

/-- SHR and SHL, which ignore Y. -/
theorem DecoderAnswer.of_shift (h : fieldFam w = 0x8#4) (hn : fieldN w = n)
    (hi : encode i = formatXYN 0x8#4 (fieldX w) 0 n) (hr : opcodeTable[rowIndex i]? = some r)
    (hm : r.mask = 0xF00F#16 := by rfl) (hv : r.value = 0x8#4 ++ 0#4 ++ 0#4 ++ n := by rfl)
    (hs : n = 0x6#4 ∨ n = 0xE#4 := by decide) : DecoderAnswer w (.ok i) := by
  refine ⟨hi.trans (clearIgnoredBits_shift h hn hs).symm, r, hr, ?_⟩
  rw [hm, hv, ← formatXYN_sub 0x8#4 (fieldX w) (fieldY w) n, formatXYN_fields h hn]

/-- The rows of families 0x5 and 0x9, which ignore N. -/
theorem DecoderAnswer.of_familyXY (h : fieldFam w = fam) (hi : encode i = formatXYN fam (fieldX w) (fieldY w) 0)
    (hr : opcodeTable[rowIndex i]? = some r) (hm : r.mask = 0xF000#16 := by rfl)
    (hv : r.value = fam ++ 0#4 ++ 0#4 ++ 0#4 := by rfl) (hf : fam = 0x5#4 ∨ fam = 0x9#4 := by decide) :
    DecoderAnswer w (.ok i) := by
  refine ⟨hi.trans (clearIgnoredBits_familyXY h hf).symm, r, hr, ?_⟩
  rw [hm, hv, ← formatXYN_family fam (fieldX w) (fieldY w) (fieldN w), formatXYN_fields h rfl]

theorem decodeFamily0_answer (h : fieldFam w = 0x0#4) : DecoderAnswer w (decodeFamily0 w) := by
  have hc : clearIgnoredBits w = w := clearIgnoredBits_of_family h (by decide)
  refine .ite (fun hcls => .of_encode hcls.symm hc) fun hcls => ?_
  refine .ite (fun hret => .of_encode hret.symm hc) fun hret => ?_
  exact .inl ⟨h, hcls, hret⟩

theorem unknownSub8_of_not_mem :
    ∀ n : Nibble, n ∉ [0x0#4, 0x1#4, 0x2#4, 0x3#4, 0x4#4, 0x5#4, 0x6#4, 0x7#4, 0xE#4] →
      n ∈ [0x8#4, 0x9#4, 0xA#4, 0xB#4, 0xC#4, 0xD#4, 0xF#4] := by decide

theorem decodeFamily8_answer (h : fieldFam w = 0x8#4) : DecoderAnswer w (decodeFamily8 w) := by
  iterate 6 refine .ite (fun hn => .of_family8 h hn rfl) fun _ => ?_
  refine .ite (fun hn => .of_shift h hn rfl rfl) fun _ => ?_
  refine .ite (fun hn => .of_family8 h hn rfl) fun _ => ?_
  refine .ite (fun hn => .of_shift h hn rfl rfl) fun _ => ?_
  exact .inr (.inl ⟨h, unknownSub8_of_not_mem _ (by simp [*])⟩)

theorem decodeFamilyE_answer (h : fieldFam w = 0xE#4) : DecoderAnswer w (decodeFamilyE w) := by
  iterate 2 refine .ite (fun hnn => .of_formatXB h hnn rfl) fun _ => ?_
  exact .inr (.inr (.inl ⟨h, by simp [*]⟩))

theorem decodeFamilyF_answer (h : fieldFam w = 0xF#4) : DecoderAnswer w (decodeFamilyF w) := by
  iterate 9 refine .ite (fun hnn => .of_formatXB h hnn rfl) fun _ => ?_
  exact .inr (.inr (.inr ⟨h, by simp [*]⟩))

/-- The family left for the decoder's last branch. -/
theorem family_eq_last :
    ∀ fam : BitVec 4, fam ∉ [0x0#4, 0x1#4, 0x2#4, 0x3#4, 0x4#4, 0x5#4, 0x6#4, 0x7#4, 0x8#4, 0x9#4, 0xA#4, 0xB#4, 0xC#4,
      0xD#4, 0xE#4] → fam = 0xF#4 := by decide

/-- Every answer of the decoder, branch by branch: the families in the order of R49. -/
theorem decodeWord_answer (w : Word) : DecoderAnswer w (decodeWord w) := by
  refine .ite decodeFamily0_answer fun _ => ?_
  iterate 2 refine .ite (fun h => .of_formatA h rfl) fun _ => ?_
  iterate 2 refine .ite (fun h => .of_formatXB h rfl rfl) fun _ => ?_
  refine .ite (fun h => .of_familyXY h rfl rfl) fun _ => ?_
  iterate 2 refine .ite (fun h => .of_formatXB h rfl rfl) fun _ => ?_
  refine .ite decodeFamily8_answer fun _ => ?_
  refine .ite (fun h => .of_familyXY h rfl rfl) fun _ => ?_
  iterate 2 refine .ite (fun h => .of_formatA h rfl) fun _ => ?_
  refine .ite (fun h => .of_formatXB h rfl rfl) fun _ => ?_
  refine .ite (fun h => .of_encode (formatXYN_fields h rfl) (clearIgnoredBits_of_family h (by decide))) fun _ => ?_
  refine .ite decodeFamilyE_answer fun _ => ?_
  exact decodeFamilyF_answer (family_eq_last _ (by simp [*]))

theorem decodeWord_ok (h : decodeWord w = .ok i) :
    encode i = clearIgnoredBits w ∧ ∃ r, opcodeTable[rowIndex i]? = some r ∧ w &&& r.mask = r.value := by
  have ha := decodeWord_answer w
  rwa [h] at ha

/-- A rejected word is unknown. -/
theorem decodeWord_error {e : DecodeError} (h : decodeWord w = .error e) : Machine.unknownWord w := by
  have ha := decodeWord_answer w
  rwa [h] at ha

/-! ### Decoding undoes encoding -/

/-- The fields of a format are what was put in (R47), so each row's dispatch finds its own branch. -/
theorem decodeWord_encode (i : Instr) : decodeWord (encode i) = .ok i := by
  cases i with
  | cls => rfl
  | ret => rfl
  | _ => simp [encode, decodeWord, decodeFamily8, decodeFamilyE, decodeFamilyF]

theorem decodeBytes_bytesOfWord (h : decodeWord w = .ok i) (rest : List Byte) :
    decodeBytes (bytesOfWord w ++ rest) = .ok (i, rest) := by
  simp [bytesOfWord, decodeBytes, h]

/-- Settles O3: the bytes of the encoding form the encoding again, which decodes by its fields. -/
theorem decodeInvertsEncode : Obligations.DecodeInvertsEncode := fun i rest =>
  ⟨decodeWord_encode i, decodeBytes_bytesOfWord (decodeWord_encode i) rest⟩

/-! ### The decoder against R50, R52 and R53 -/

/-- Settles O4: a word's instruction encodes to the word but for its ignored bits. A word that agrees with it but for those bits
cannot be unknown: an unknown word has none of them, so it would be an encoding, which selects a row. -/
theorem onlyIgnoredBitsAreDropped : Obligations.OnlyIgnoredBitsAreDropped := by
  intro w i h
  obtain ⟨henc, -⟩ := decodeWord_ok h
  refine ⟨henc, fun w' => ⟨fun h' => (decodeWord_ok h').1.symm.trans henc, fun hc => ?_⟩⟩
  rw [← henc] at hc
  cases hd : decodeWord w' with
  | ok j =>
    have hj : encode j = encode i := (decodeWord_ok hd).1.trans hc
    rw [← decodeWord_encode, hj, decodeWord_encode]
  | error e =>
    have hu := decodeWord_error hd
    rw [clearIgnoredBits_of_unknownWord hu] at hc
    exact absurd (hc ▸ hu) (not_unknownWord_encode i)

/-- A word that selects a row decodes. -/
theorem decodes_of_selects (hr : r ∈ opcodeTable) (h : w &&& r.mask = r.value) : ∃ i, decodeWord w = .ok i := by
  cases hd : decodeWord w with
  | ok i => exact ⟨i, rfl⟩
  | error e => exact absurd (decodeWord_error hd) (not_unknownWord_of_selects hr h)

/-- Settles O5: a word that selects a row is not unknown, so it decodes, and it selects no row but its
instruction's. -/
theorem decoderFollowsOpcodeTable : Obligations.DecoderFollowsOpcodeTable := by
  refine ⟨fun w i h => (decodeWord_ok h).2, fun w r hr hs => ?_⟩
  obtain ⟨i, hi⟩ := decodes_of_selects hr hs
  obtain ⟨-, r', hr', hs'⟩ := decodeWord_ok hi
  exact ⟨i, hi, selectedRow_unique hr (List.mem_of_getElem? hr') hs hs' ▸ hr'⟩

/-- Settles O6: a rejected word is unknown, and a word that decodes selects a row, which no unknown word does. -/
theorem rejectsExactlyUnknownWords : Obligations.RejectsExactlyUnknownWords := by
  refine fun w => ⟨fun ⟨_, h⟩ => decodeWord_error h, fun hu => ?_⟩
  cases hd : decodeWord w with
  | error e => exact ⟨e, rfl⟩
  | ok i =>
    obtain ⟨-, r, hr, hs⟩ := decodeWord_ok hd
    exact absurd hu (not_unknownWord_of_selects (List.mem_of_getElem? hr) hs)

/-! ### Sample words and the fields (R46) -/

/-- Settles O1: eighteen closed words, each evaluated. -/
theorem decodesSampleWords : Obligations.DecodesSampleWords := by
  unfold Obligations.DecodesSampleWords
  decide

/-- Settles O2: a mask of low ones is a remainder and a shift a quotient, by powers of two. -/
theorem fieldsAreMaskedAndShifted : Obligations.FieldsAreMaskedAndShifted := by
  intro w
  have h4 (a : Nat) : a &&& 0xF = a % 2 ^ 4 := Nat.and_two_pow_sub_one_eq_mod a 4
  have h8 (a : Nat) : a &&& 0xFF = a % 2 ^ 8 := Nat.and_two_pow_sub_one_eq_mod a 8
  have h12 (a : Nat) : a &&& 0xFFF = a % 2 ^ 12 := Nat.and_two_pow_sub_one_eq_mod a 12
  simp only [fieldFam, fieldX, fieldY, fieldN, fieldNN, fieldNNN, BitVec.val_toFin, BitVec.extractLsb'_toNat, h4, h8, h12,
    Nat.shiftRight_eq_div_pow, true_and]
  omega

end Sys2Proof

/-! ### The cycle (40_cycle.md) -/

namespace Sys2Proof.Machine

variable {i : Instr} {s t : State} {w : Word}

/-! What `step` is on a halted machine, on a word that decodes and on one that does not (R60); the fourth case, no word to
fetch, is `step_of_fetch_none`. -/

theorem step_of_halted (h : s.fault.valid = true) : step s = .next s :=
  if_pos h

theorem step_of_decodes (hr : s.running) (hf : s.fetch = some w) (hd : decodeWord w = .ok i) :
    step s = endCycle (exec i s) := by
  have hv : s.fault.valid = false := hr
  rw [step, hv, hf]
  simp [hd]

theorem step_of_unknown {e : DecodeError} (hr : s.running) (hf : s.fetch = some w) (hd : decodeWord w = .error e) :
    step s = endCycle (unknownOpcode s w) := by
  have hv : s.fault.valid = false := hr
  rw [step, hv, hf]
  simp [hd]

theorem endCycle_of_running (h : t.running) : endCycle (.next t) = .next t.timerTick := by
  have hv : t.fault.valid = false := h
  simp [endCycle, hv]

/-- A cycle that raised ends without the tick (R64, R122). -/
theorem endCycle_of_raised (h : t.fault.valid = true) : endCycle (.next t) = .next t := by
  simp [endCycle, h]

/-- Two bytes decode as the word they form (R45). -/
theorem decodeWord_of_decodeBytes {hi lo : Byte} (h : decodeBytes [hi, lo] = .ok (i, [])) :
    decodeWord (wordOfBytes hi lo) = .ok i := by
  cases hd : decodeWord (wordOfBytes hi lo) with
  | ok j => simpa [decodeBytes, hd] using h
  | error e => simp [decodeBytes, hd] at h

/-- Settles O7: the two bytes form the fetched word, which decodes. -/
theorem stepRunsDecodedInstruction : Obligations.StepRunsDecodedInstruction := by
  intro s t i hr hm hd ht
  have hf : s.fetch = some (s.readWord s.pc.toNat) := State.fetch_some.2 ⟨hm, rfl⟩
  rw [step_of_decodes hr hf (decodeWord_of_decodeBytes hd), ht, endCycle]

/-- Settles O10: an unknown word does not decode, and the policy decides; only the abort skips the tick. -/
theorem unknownOpcodeFollowsPolicy : Obligations.UnknownOpcodeFollowsPolicy := by
  intro s w hr hf hu
  obtain ⟨e, hd⟩ := (rejectsExactlyUnknownWords w).2 hu
  rw [step_of_unknown hr hf hd]
  constructor
  · intro hp
    rw [unknownOpcode_next.2 (.inl ⟨hp, rfl⟩)]
    exact endCycle_of_raised rfl
  · intro hp
    rw [unknownOpcode_next.2 (.inr ⟨hp, rfl⟩)]
    exact endCycle_of_running hr

theorem exec_answers_next (i : Instr) (s : State) : ∃ t, exec i s = .next t := by
  cases hc : raisesWhen i s with
  | some c => exact ⟨_, exec_of_raises hc⟩
  | none => exact ⟨_, exec_of_not_raises hc⟩

theorem unknownOpcode_answers_next (s : State) (w : Word) : ∃ t, unknownOpcode s w = .next t := by
  cases hp : s.cfg.unknownPolicy with
  | abort => exact ⟨_, unknownOpcode_next.2 (.inl ⟨hp, rfl⟩)⟩
  | skip => exact ⟨_, unknownOpcode_next.2 (.inr ⟨hp, rfl⟩)⟩

theorem endCycle_answers_next {o : Host.Outcome State Fault Refusal} (h : ∃ u, o = .next u) : ∃ t, endCycle o = .next t := by
  obtain ⟨u, rfl⟩ := h
  exact ⟨_, rfl⟩

theorem step_answers_next (s : State) : ∃ t, step s = .next t := by
  cases hv : s.fault.valid with
  | true => exact ⟨s, step_of_halted hv⟩
  | false =>
    cases hf : s.fetch with
    | none => exact ⟨_, step_of_fetch_none hv hf⟩
    | some w =>
      cases hd : decodeWord w with
      | ok i => exact step_of_decodes hv hf hd ▸ endCycle_answers_next (exec_answers_next i s)
      | error e => exact step_of_unknown hv hf hd ▸ endCycle_answers_next (unknownOpcode_answers_next s w)

/-- Settles O11: an instruction raises or has its effect, and a cycle ends what its fetch, instruction or unknown opcode began. -/
theorem everyStepAnswersNext : Obligations.EveryStepAnswersNext :=
  ⟨step_answers_next, exec_answers_next⟩

/-- Settles O12, by induction on the number of cycles. -/
theorem haltedMachineNeverChanges : Obligations.HaltedMachineNeverChanges := by
  intro s n h
  induction n with
  | zero => rfl
  | succ n ih => rw [runCycles_succ n (step_of_halted h), ih]

/-! ### The tick at the end of a cycle (R64, R131) -/

/-- TICK counts down, and starts again at TICK_PERIOD. -/
theorem State.timerTick_tick (h : 1 ≤ s.tick) :
    s.timerTick.tick = if s.tick = 1 then s.cfg.tickPeriod else s.tick - 1 := by
  obtain h1 | h1 := h.eq_or_lt
  · rw [State.timerTick_of_one h1.symm, if_pos h1.symm]
  · rw [State.timerTick_of_lt h1, if_neg h1.ne']

/-- DT counts down only when TICK starts again, and stops at 0. -/
theorem State.timerTick_dt_toNat (h : 1 ≤ s.tick) :
    s.timerTick.dt.toNat = if s.tick = 1 then s.dt.toNat - 1 else s.dt.toNat := by
  obtain h1 | h1 := h.eq_or_lt
  · rw [State.timerTick_of_one h1.symm, if_pos h1.symm]
    exact countDown_toNat s.dt
  · rw [State.timerTick_of_lt h1, if_neg h1.ne']

/-- Settles O55: the cycle ends with the tick of the effect, in which DT is loaded and TICK is as it was. -/
theorem loadedTimerTicksInSameCycle : Obligations.LoadedTimerTicksInSameCycle := by
  intro s x hr hf htick
  refine ⟨(effect (.ldDTVx x) s).timerTick, ?_, ?_, ?_, ?_⟩
  · rw [step_of_decodes hr hf (decodeWord_encode _), exec_of_not_raises rfl]
    exact endCycle_of_running hr
  · exact State.timerTick_pc _
  · exact State.timerTick_dt_toNat (s := effect (.ldDTVx x) s) htick
  · exact State.timerTick_tick (s := effect (.ldDTVx x) s) htick

end Sys2Proof.Machine

/-! ### Control transfer (41_flow.md) -/

namespace Sys2Proof.Machine

variable {s : State}

theorem zext12_eq_ofNat (nnn : Addr12) : zext12 nnn = BitVec.ofNat 16 nnn.toNat :=
  (BitVec.ofNat_toNat ..).symm

theorem zext8_eq_ofNat (b : Byte) : zext8 b = BitVec.ofNat 16 b.toNat :=
  (BitVec.ofNat_toNat ..).symm

/-- An index below 16 names an entry (R14). -/
theorem State.stackAt_val (s : State) (k : Fin 16) : s.stackAt k.val = s.stack.get k := by
  simp [State.stackAt, Vector.get_eq_getElem]

/-- RET with an address held (R71). -/
theorem exec_ret (h : s.sp ≠ 0) : exec .ret s = .next (s.pop.jump (s.stackAt (s.sp - 1))) :=
  exec_of_not_raises (by simp [raisesWhen, h])

/-- CALL below 16 held addresses (R73). -/
theorem exec_callAddr (nnn : Addr12) (h : s.sp < 16) :
    exec (.callAddr nnn) s = .next ((s.push (s.pc + 2)).jump (zext12 nnn)) :=
  exec_of_not_raises (by simp [raisesWhen, h])

/-- RET after a push and a jump goes to what was pushed, whatever the jump's target. -/
theorem exec_ret_push_jump (a target : Word) (h : s.sp < 16) :
    exec .ret ((s.push a).jump target) = .next ((s.push a).pop.jump a) := by
  have htop : ((s.push a).jump target).stackAt s.sp = a := (s.stackAt_push a s.sp h).trans (if_pos rfl)
  rw [exec_ret (Nat.succ_ne_zero s.sp), State.jump_sp, State.push_sp, Nat.add_sub_cancel, htop]
  rfl

/-- Settles O30: CALL pushes pc0 + 2 at SP, which is the entry RET pops. -/
theorem callThenRetComesBack : Obligations.CallThenRetComesBack := fun s nnn h =>
  ⟨_, _, exec_callAddr nnn h, exec_ret_push_jump (s.pc + 2) (zext12 nnn) h, rfl, rfl, rfl⟩

/-- Settles O27: the entry just below SP is popped, and SP = 0 is the one condition that raises. -/
theorem retPopsReturnAddress : Obligations.RetPopsReturnAddress := by
  intro s
  constructor
  · intro k hk
    rw [exec_ret (by omega), hk, Nat.add_sub_cancel, s.stackAt_val k, State.pop, hk, Nat.add_sub_cancel]
    rfl
  · intro h
    exact exec_of_raises (c := .stackUnderflow) (if_pos h)

/-- Settles O29: the push writes the entry at SP alone, and SP = 16 raises. -/
theorem callPushesReturnAddress : Obligations.CallPushesReturnAddress := by
  intro s nnn
  constructor
  · intro h
    refine ⟨_, exec_callAddr nnn h, fun k => ?_, by rw [zext12_eq_ofNat]; rfl⟩
    rw [State.jump_stack, ← State.stackAt_val, s.stackAt_push _ _ h, s.stackAt_val]
  · intro h
    exact exec_of_raises (c := .stackOverflow) (if_pos h.ge)

/-- Settles O28: neither jump can raise, and zero extension keeps the number, so both targets are the numbers stated. -/
theorem jumpsReplacePc : Obligations.JumpsReplacePc := by
  intro s nnn
  constructor
  · rw [exec_of_not_raises rfl, effect, zext12_eq_ofNat]
    rfl
  · rw [exec_of_not_raises rfl, effect, State.jumpV0Target, zext12_eq_ofNat, zext8_eq_ofNat, ← BitVec.ofNat_add]
    rfl

/-- A skip adds 2 more to the advanced PC (R70). -/
theorem State.skipIf_advance (s : State) (b : Bool) :
    s.advance.skipIf b = { s with pc := if b then s.pc + 4 else s.pc + 2 } := by
  cases b with
  | false => rfl
  | true =>
    have hpc : s.pc + 2 + 2 = s.pc + 4 := BitVec.add_assoc ..
    rw [if_pos rfl, ← hpc]
    rfl

theorem State.skipIf_advance_beq (s : State) (a b : Byte) :
    s.advance.skipIf (a == b) = { s with pc := if a = b then s.pc + 4 else s.pc + 2 } := by
  simp only [State.skipIf_advance, beq_iff_eq]

theorem State.skipIf_advance_bne (s : State) (a b : Byte) :
    s.advance.skipIf (a != b) = { s with pc := if a = b then s.pc + 2 else s.pc + 4 } := by
  simp only [State.skipIf_advance, bne_iff_ne, ite_not]

/-- Settles O31: SE skips on `==` and SNE on `!=`, and neither can raise. -/
theorem skipsOnByte : Obligations.SkipsOnByte := by
  intro s x nn
  constructor
  · rw [exec_of_not_raises rfl, effect, State.skipIf_advance_beq]
  · rw [exec_of_not_raises rfl, effect, State.skipIf_advance_bne]

theorem exec_seVxVy (x y : Reg) :
    exec (.seVxVy x y) s = .next { s with pc := if s.getV x = s.getV y then s.pc + 4 else s.pc + 2 } := by
  rw [exec_of_not_raises rfl, effect, State.skipIf_advance_beq]

theorem exec_sneVxVy (x y : Reg) :
    exec (.sneVxVy x y) s = .next { s with pc := if s.getV x = s.getV y then s.pc + 2 else s.pc + 4 } := by
  rw [exec_of_not_raises rfl, effect, State.skipIf_advance_bne]

/-- Settles O32: with X = Y the registers compare equal. -/
theorem skipsOnRegisters : Obligations.SkipsOnRegisters := by
  intro s x y
  refine ⟨exec_seVxVy x y, exec_sneVxVy x y, ?_, ?_⟩
  · rw [exec_seVxVy, if_pos rfl]
  · rw [exec_sneVxVy, if_pos rfl]

end Sys2Proof.Machine

/-! ### Register load and ALU (42_alu.md) -/

namespace Sys2Proof

/-- A word of format XB as a number (R47). -/
theorem formatXB_toNat (fam : BitVec 4) (x : Reg) (nn : Byte) :
    (formatXB fam x nn).toNat = 4096 * fam.toNat + 256 * x.val + nn.toNat := by
  have hhi : (fam ++ BitVec.ofFin (w := 4) x).toNat = fam.toNat <<< 4 ||| x.val := BitVec.toNat_append fam _
  rw [← Nat.shiftLeft_add_eq_or_of_lt x.isLt, Nat.shiftLeft_eq] at hhi
  have hword := wordOfBytes_toNat (fam ++ BitVec.ofFin (w := 4) x) nn
  rw [hhi] at hword
  exact hword.trans (by omega)

end Sys2Proof

namespace Sys2Proof.Machine

variable {i : Instr} {s : State} {x : Reg} {b f : Byte}

/-! The bytes the ALU computes, by their numbers. -/

theorem byte_add_eq_ofNat (a b : Byte) : a + b = BitVec.ofNat 8 ((a.toNat + b.toNat) % 256) :=
  BitVec.eq_of_toNat_eq (by simp)

theorem byte_sub_eq_ofNat (a b : Byte) : a - b = BitVec.ofNat 8 ((a.toNat + 256 - b.toNat) % 256) := by
  apply BitVec.eq_of_toNat_eq
  rw [BitVec.toNat_sub, BitVec.toNat_ofNat]
  omega

theorem byte_shiftRight_one_eq_ofNat (a : Byte) : a >>> 1 = BitVec.ofNat 8 (a.toNat / 2) := by
  apply BitVec.eq_of_toNat_eq
  rw [BitVec.toNat_ushiftRight, BitVec.toNat_ofNat, Nat.shiftRight_eq_div_pow]
  omega

theorem byte_shiftLeft_one_eq_ofNat (a : Byte) : a <<< 1 = BitVec.ofNat 8 (2 * a.toNat % 256) := by
  apply BitVec.eq_of_toNat_eq
  rw [BitVec.toNat_shiftLeft, BitVec.toNat_ofNat, Nat.shiftLeft_eq]
  omega

theorem flagByte_decide (p : Prop) [Decidable p] : flagByte (decide p) = if p then 1 else 0 := by
  simp only [flagByte, decide_eq_true_eq]

/-- A flag that is a bit of a byte, as a number. -/
theorem flagByte_getLsbD (a : Byte) (k : Nat) : flagByte (a.getLsbD k) = BitVec.ofNat 8 (a.toNat / 2 ^ k % 2) := by
  rw [← Nat.toNat_testBit, BitVec.testBit_toNat]
  cases a.getLsbD k <;> rfl

theorem shiftRightFlag_eq_ofNat (a : Byte) : shiftRightFlag a = BitVec.ofNat 8 (a.toNat % 2) := by
  rw [shiftRightFlag, flagByte_getLsbD, pow_zero, Nat.div_one]

theorem shiftLeftFlag_eq_ofNat (a : Byte) : shiftLeftFlag a = BitVec.ofNat 8 (a.toNat / 128) := by
  have hbit : a.toNat / 2 ^ 7 % 2 = a.toNat / 128 := by omega
  rw [shiftLeftFlag, flagByte_getLsbD, hbit]

/-! The two shapes of an ALU instruction that cannot raise. -/

/-- An instruction whose effect is one register write. -/
theorem exec_setsRegister (hn : raisesWhen i s = none) (he : effect i s = s.advance.setV x b) :
    setsRegister (exec i s) s x b :=
  ⟨_, (exec_of_not_raises hn).trans (congrArg _ he), fun r => State.getV_setV s.advance x r b, rfl⟩

/-- An instruction whose effect is a result and then a flag (R80). -/
theorem exec_setsRegisterAndFlag (hn : raisesWhen i s = none) (he : effect i s = s.advance.setResultThenFlag x b f) :
    setsRegisterAndFlag (exec i s) s x b f :=
  ⟨_, (exec_of_not_raises hn).trans (congrArg _ he), fun r => State.getV_setResultThenFlag s.advance x r b f, rfl⟩

/-- Settles O33: the effect is the write of NN, whichever register X names. -/
theorem loadByteSetsRegister : Obligations.LoadByteSetsRegister := fun _ x nn =>
  ⟨exec_setsRegister rfl rfl, formatXB_toNat 0x6 x nn⟩

/-- Settles O34: the effect is the write of the sum of two bytes, which is the sum modulo 256. -/
theorem addByteWrapsWithoutCarry : Obligations.AddByteWrapsWithoutCarry := by
  intro s x nn
  constructor
  · rw [← byte_add_eq_ofNat]
    exact exec_setsRegister rfl rfl
  · exact formatXB_toNat 0x7 x nn

/-- Settles O35: each effect is one register write. -/
theorem copyAndLogicSetRegister : Obligations.CopyAndLogicSetRegister := fun _ _ _ =>
  ⟨exec_setsRegister rfl rfl, exec_setsRegister rfl rfl, exec_setsRegister rfl rfl, exec_setsRegister rfl rfl⟩

/-- Settles O36: byte arithmetic is arithmetic modulo 256, and each flag is its comparison of the two numbers. -/
theorem addAndSubtractSetCarryAndBorrow : Obligations.AddAndSubtractSetCarryAndBorrow := by
  rintro s x y _ _ rfl rfl
  refine ⟨?_, ?_, ?_⟩
  · rw [← byte_add_eq_ofNat, ← flagByte_decide]
    exact exec_setsRegisterAndFlag rfl rfl
  · rw [← byte_sub_eq_ofNat, ← flagByte_decide]
    exact exec_setsRegisterAndFlag rfl rfl
  · rw [← byte_sub_eq_ofNat, ← flagByte_decide]
    exact exec_setsRegisterAndFlag rfl rfl

/-- Settles O37: a shift halves or doubles modulo 256, and the flag is bit 0 or bit 7 of the old value. -/
theorem shiftsSetShiftedOutBit : Obligations.ShiftsSetShiftedOutBit := by
  rintro s x _ rfl
  constructor
  · rw [← byte_shiftRight_one_eq_ofNat, ← shiftRightFlag_eq_ofNat]
    exact exec_setsRegisterAndFlag rfl rfl
  · rw [← byte_shiftLeft_one_eq_ofNat, ← shiftLeftFlag_eq_ofNat]
    exact exec_setsRegisterAndFlag rfl rfl

/-- Settles O38: Vx is written with the draw AND NN, so a bit that NN lacks is 0 in it. -/
theorem randomByteUnderMask : Obligations.RandomByteUnderMask := by
  intro s x nn
  have hregs (r : Reg) : (effect (.rndVxNN x nn) s).getV r =
      if r = x then Config.freeRandomByte s.draws &&& nn else s.getV r := State.getV_setV s.advance x r _
  refine ⟨_, exec_of_not_raises rfl, hregs, fun k hk => ?_, rfl⟩
  rw [hregs, if_pos rfl, BitVec.getLsbD_and, hk, Bool.and_false]

end Sys2Proof.Machine

/-! ### Address register, loads and stores (43_index_memory.md) -/

namespace Sys2Proof.Machine

variable {i : Instr} {s : State} {a k : Nat} {b : Byte} {bs : List Byte}

theorem word_add_zext8_eq_ofNat (w : Word) (b : Byte) : w + zext8 b = BitVec.ofNat 16 ((w.toNat + b.toNat) % 65536) := by
  rw [zext8_eq_ofNat]
  exact BitVec.eq_of_toNat_eq (by simp)

/-- The font lies below 0x200, and a byte adds at most 5 * 255 to its address (R4, R97). -/
theorem fontBase_add_lt {c : Config} (h : c.wellFormed = true) (b : Byte) : c.fontBase + 5 * b.toNat < 65536 := by
  simp only [Config.wellFormed, Bool.and_eq_true] at h
  obtain ⟨⟨⟨_, hfont⟩, _⟩, _⟩ := h
  have hbase : c.fontBase + 80 ≤ 0x200 := of_decide_eq_true hfont
  omega

/-- Settles O41: none of the three can raise, and each effect writes the stated number to I. -/
theorem addressRegisterLoads : Obligations.AddressRegisterLoads := by
  intro s x nnn
  refine ⟨?_, ?_, exec_of_not_raises rfl, fun h => fontBase_add_lt h _⟩
  · rw [← zext12_eq_ofNat]
    exact exec_of_not_raises rfl
  · rw [← word_add_zext8_eq_ofNat]
    exact exec_of_not_raises rfl

/-- After storing bytes, the byte k above the first address is the k-th one (R32). -/
theorem State.readByte_writeBytes_inside (s : State) (hw : Memory.wf s.cfg s.mem) (hm : a + bs.length ≤ s.cfg.memSize)
    (hk : bs[k]? = some b) : (s.writeBytes a bs).readByte (a + k) = b := by
  rw [s.readByte_writeBytes bs hw hm, if_pos (Nat.le_add_right a k), Nat.add_sub_cancel_left, hk, Option.getD_some]

/-- An instruction whose effect stores bytes at I, all of them within memory, changes those bytes and PC alone (R35, R36). -/
theorem exec_store (hw : Memory.wf s.cfg s.mem) (hm : s.dataAddr 0 + bs.length ≤ s.cfg.memSize) (hn : raisesWhen i s = none)
    (he : effect i s = s.advance.writeBytes (s.dataAddr 0) bs) :
    ∃ t, exec i s = .next t ∧ t = { s with mem := t.mem, pc := s.pc + 2 } ∧
      (∀ {k b}, bs[k]? = some b → t.readByte (s.dataAddr k) = b) ∧
      ∀ a, (a < s.dataAddr 0 ∨ s.dataAddr 0 + bs.length ≤ a) → t.readByte a = s.readByte a :=
  ⟨_, (exec_of_not_raises hn).trans (congrArg _ he), State.writeBytes_eq _ _ _,
    fun hk => s.advance.readByte_writeBytes_inside hw hm hk, fun _ ha => s.advance.readByte_writeBytes_outside hw hm ha⟩

/-- Settles O42: the three digits are the bytes stored, and each is below 256. -/
theorem storeDecimalDigits : Obligations.StoreDecimalDigits := by
  intro s x hw
  constructor
  · intro hm
    obtain ⟨t, ht, hframe, hstored, hkept⟩ :=
      exec_store (i := .ldBVx x) (bs := bcdDigits (s.getV x)) hw hm (if_neg (Nat.not_lt.2 hm)) rfl
    have hdigit {k n : Nat} (hk : (bcdDigits (s.getV x))[k]? = some (BitVec.ofNat 8 n)) (hn : n < 2 ^ 8) :
        (t.readByte (s.dataAddr k)).toNat = n := by
      rw [hstored hk, BitVec.toNat_ofNat, Nat.mod_eq_of_lt hn]
    exact ⟨t, ht, hframe, hdigit (k := 0) rfl (by omega), hdigit (k := 1) rfl (by omega),
      hdigit (k := 2) rfl (by omega), hkept⟩
  · intro h
    exact exec_of_raises (c := .dataBound) (if_pos h)

/-- Settles O43: the bytes stored are V0..VX in order. -/
theorem storeRegisterBlock : Obligations.StoreRegisterBlock := by
  intro s x hw
  constructor
  · intro hm
    have hlen : s.dataAddr 0 + (s.regBytes x).length = s.dataAddr 0 + x.val + 1 := by rw [State.length_regBytes, Nat.add_assoc]
    obtain ⟨t, ht, hframe, hstored, hkept⟩ :=
      exec_store (i := .ldMemVx x) hw (hlen.trans_le hm) (if_neg (Nat.not_lt.2 hm)) rfl
    exact ⟨t, ht, hframe, fun r hr => hstored (State.getElem?_regBytes x r hr), hlen ▸ hkept⟩
  · intro h
    exact exec_of_raises (c := .dataBound) (if_pos h)

/-- Settles O44: the effect loads V0..VX and keeps the rest, and the bound is the one condition that raises. -/
theorem loadRegisterBlock : Obligations.LoadRegisterBlock := by
  intro s x
  constructor
  · intro hm
    exact ⟨_, exec_of_not_raises (if_neg (Nat.not_lt.2 hm)), rfl, State.getV_loadRegs s.advance x⟩
  · intro h
    exact exec_of_raises (c := .dataBound) (if_pos h)

/-- Settles O45: the store keeps I, so the load reads the addresses stored to, and keeps I as well. -/
theorem blockStoreThenLoadRestores : Obligations.BlockStoreThenLoadRestores := by
  intro s x v' hw hm
  obtain ⟨t, ht, hstore, hstored, _⟩ := (storeRegisterBlock s x hw).1 hm
  have hi : t.i = s.i := by rw [hstore]
  have hcfg : t.cfg = s.cfg := by rw [hstore]
  have haddr (k : Nat) : ({ t with v := v' } : State).dataAddr k = s.dataAddr k := congrArg (·.toNat + k) hi
  obtain ⟨u, hu, hload, hregs⟩ := (loadRegisterBlock { t with v := v' } x).1 (by rw [haddr, hcfg]; exact hm)
  refine ⟨t, u, ht, hu, fun r hr => ?_, ?_⟩
  · rw [hregs, if_pos hr, haddr]
    exact hstored r hr
  · rw [hload]
    exact hi

end Sys2Proof.Machine

/-! ### Display (44_display.md) -/

namespace Sys2Proof.Machine

variable {s t : State} {x y : Reg} {n : Nibble}

/-! A draw, by `spriteBit`: when it does not raise, what it leaves in each pixel, and what it puts into VF (R106). -/

/-- A draw whose bytes are within memory does not raise, and neither does one of no bytes (R35). -/
theorem raisesWhen_drwVxVyN (h : n = 0 ∨ s.dataAddr 0 + n.toNat ≤ s.cfg.memSize) :
    raisesWhen (.drwVxVyN x y n) s = none := by
  refine if_neg fun ⟨hpos, hpast⟩ => ?_
  obtain rfl | hfit := h
  · exact absurd hpos (Nat.lt_irrefl 0)
  · exact absurd hfit (Nat.not_le.2 hpast)

/-- A nonempty sprite past memory raises DataBound. -/
theorem raisesWhen_drwVxVyN_past (hn : n ≠ 0) (h : s.cfg.memSize < s.dataAddr 0 + n.toNat) :
    raisesWhen (.drwVxVyN x y n) s = some .dataBound :=
  if_pos ⟨Nat.pos_of_ne_zero fun h0 => hn (BitVec.eq_of_toNat_eq h0), h⟩

theorem State.spriteBit_eq_spriteCovers (s : State) (x y : Reg) (n : Nibble) (row : Fin 32) (col : Fin 64) :
    s.spriteBit x y n row col =
      spriteCovers (fun r => s.readByte (s.dataAddr r)) n.toNat (s.getV x).toNat (s.getV y).toNat row col := by
  simp only [State.spriteBit, Bool.decide_and, Bool.and_assoc]
  rfl

theorem State.pixel_drawn (s : State) (x y : Reg) (n : Nibble) (row : Fin 32) (col : Fin 64) :
    (s.drawn x y n).1.pixel row col = (s.fb.pixel row col ^^ s.spriteBit x y n row col) := by
  rw [s.spriteBit_eq_spriteCovers]
  exact (drawSprite_spec _ _ _ _ s.fb (by omega)).1 row col

theorem State.drawn_collision (s : State) (x y : Reg) (n : Nibble) :
    (s.drawn x y n).2 = true ↔ ∃ row col, s.fb.pixel row col = true ∧ s.spriteBit x y n row col = true := by
  simp only [s.spriteBit_eq_spriteCovers]
  exact (drawSprite_spec _ _ _ _ s.fb (by omega)).2

theorem collisionFlag_eq_one_iff (b : Bool) : collisionFlag b = 1 ↔ b = true := by
  cases b <;> decide

theorem effect_drwVxVyN_flag (s : State) (x y : Reg) (n : Nibble) :
    (effect (.drwVxVyN x y n) s).getV regVF = collisionFlag (s.drawn x y n).2 :=
  (State.getV_setV s.advance regVF regVF _).trans (if_pos rfl)

/-- The sprite's bits are the same in two states that agree on V[X], V[Y], I and memory. -/
theorem State.spriteBit_congr (hx : t.getV x = s.getV x) (hy : t.getV y = s.getV y) (hi : t.i = s.i)
    (hm : ∀ a, t.readByte a = s.readByte a) : t.spriteBit x y n = s.spriteBit x y n := by
  funext row col
  simp only [State.spriteBit, hx, hy, hi, hm]

/-- Settles O49: the effect is the draw, and the bound is the one condition that raises. -/
theorem drawXorsSprite : Obligations.DrawXorsSprite := by
  intro s x y n
  refine ⟨fun hb => ⟨_, exec_of_not_raises (raisesWhen_drwVxVyN hb), s.pixel_drawn x y n, ?_, ?_, ?_, rfl⟩, ?_⟩
  · rw [effect_drwVxVyN_flag, collisionFlag_eq_one_iff]
    exact s.drawn_collision x y n
  · rw [effect_drwVxVyN_flag]
    exact flagByte_eq_zero_or_one _
  · exact fun r hr => effect_getV rfl fun _ => hr
  · exact fun hn hpast => exec_of_raises (raisesWhen_drwVxVyN_past hn hpast)

/-- Settles O50: the first draw keeps what places the sprite, so the second XORs the same bits, and a pixel under a 1 bit is on
before the second draw exactly if it was off before the first. -/
theorem drawTwiceRestores : Obligations.DrawTwiceRestores := by
  intro s x y n hx hy hb
  obtain ⟨t, ht, hpix, _, _, hkept, hframe⟩ := (drawXorsSprite s x y n).1 hb
  have hi : t.i = s.i := by rw [hframe]
  have hcfg : t.cfg = s.cfg := by rw [hframe]
  have hread (a : Nat) : t.readByte a = s.readByte a := by rw [hframe]; rfl
  have hbit : t.spriteBit x y n = s.spriteBit x y n := State.spriteBit_congr (hkept x hx) (hkept y hy) hi hread
  have hb' : n = 0 ∨ t.dataAddr 0 + n.toNat ≤ t.cfg.memSize := by rwa [State.dataAddr, hi, hcfg]
  obtain ⟨u, hu, hpix', hflag, _⟩ := (drawXorsSprite t x y n).1 hb'
  rw [hbit] at hpix' hflag
  refine ⟨t, u, ht, hu, Framebuffer.ext_pixel fun row col => ?_, hflag.trans ?_⟩
  · rw [hpix', hpix, Bool.xor_assoc, Bool.xor_self, Bool.xor_false]
  · refine exists_congr fun row => exists_congr fun col => and_congr_left fun hon => ?_
    rw [hpix, hon, Bool.xor_true, Bool.not_eq_true']

/-- Settles O48: every pixel of the blank framebuffer is off. -/
theorem clearScreen : Obligations.ClearScreen := fun _ =>
  ⟨_, exec_of_not_raises rfl, Framebuffer.pixel_blank, rfl⟩

/-! The host's queries of the display (R107, R108). -/

theorem pixelAt_inside (s : State) {row col : Nat} (hr : row < 32) (hc : col < 64) :
    pixelAt s row col = some (s.fb.pixel ⟨row, hr⟩ ⟨col, hc⟩) :=
  dif_pos ⟨hr, hc⟩

theorem pixelAt_outside (s : State) {row col : Nat} (h : 32 ≤ row ∨ 64 ≤ col) : pixelAt s row col = none :=
  dif_neg (by omega)

/-- Settles O24: the query answers what `pixelAt` reads, and is refused where it reads nothing. -/
theorem pixelQueryReadsGrid : Obligations.PixelQueryReadsGrid := by
  intro p row col
  constructor
  · intro hr hc
    simp only [hostStep, pixelAt_inside p.machine hr hc]
  · intro h
    simp only [hostStep, pixelAt_outside p.machine h]

/-- Settles O25: the effects of CLS and DRW set DIRTY, and the clear touches nothing that decides whether a draw raises. -/
theorem dirtyQueryAndClear : Obligations.DirtyQueryAndClear := by
  rintro p _ rfl
  refine ⟨rfl, rfl, ⟨_, exec_of_not_raises rfl, rfl⟩, fun x y n hb => ?_⟩
  exact ⟨_, exec_of_not_raises (raisesWhen_drwVxVyN hb), rfl⟩

end Sys2Proof.Machine

/-! ### Keypad and timers (45_keypad_timers.md) -/

namespace Sys2Proof.Machine

variable {s : State} {x : Reg} {w : Word}

/-! LD Vx,K (R113). -/

/-- The rewind undoes the advance, so with no key down nothing changes. -/
theorem exec_ldVxK_of_no_key (hk : s.key = 0) : exec (.ldVxK x) s = .next s := by
  have hpc : s.advance.pc - 2 = s.pc := BitVec.add_sub_cancel s.pc 2
  rw [exec_of_not_raises rfl, effect, if_pos hk, hpc]
  rfl

/-- With a key down, Vx gets the index KEY_PICK chooses. -/
theorem exec_ldVxK_of_key (hk : s.key ≠ 0) :
    setsRegister (exec (.ldVxK x) s) s x (BitVec.ofNat 8 (keyPick s.cfg s.key)) :=
  exec_setsRegister rfl (if_neg hk)

/-- Settles O52: the index is KEY_PICK's, which is a pressed key's, and by default the lowest. -/
theorem waitForKey : Obligations.WaitForKey := by
  intro s x
  refine ⟨exec_ldVxK_of_no_key, fun hk => ?_⟩
  obtain ⟨hlt, hpressed⟩ := keyPick_spec (c := s.cfg) hk
  refine ⟨keyPick s.cfg s.key, hlt, hpressed, exec_ldVxK_of_key hk, fun hdefault => ?_⟩
  rw [keyPick_default hdefault]
  exact (lowestKey_spec hk).2.2

/-! The wait. -/

/-- The tick writes TICK and the timers and nothing else (R131). -/
theorem State.timerTick_eq (s : State) :
    s.timerTick = { s with tick := s.timerTick.tick, dt := s.timerTick.dt, st := s.timerTick.st } := by
  unfold State.timerTick
  split <;> rfl

theorem State.fetch_timerTick (s : State) : s.timerTick.fetch = s.fetch := by
  rw [s.timerTick_eq]
  rfl

/-- A cycle that waits for a key is a tick and no more. -/
theorem step_of_waiting (hr : s.running) (hk : s.key = 0) (hf : s.fetch = some w) (hd : decodeWord w = .ok (.ldVxK x)) :
    step s = .next s.timerTick := by
  rw [step_of_decodes hr hf hd, exec_ldVxK_of_no_key hk]
  exact endCycle_of_running hr

/-- Any number of waiting cycles moves TICK and the timers alone: each is a tick, which leaves the machine waiting. -/
theorem runCycles_of_waiting (n : Nat) (hr : s.running) (hk : s.key = 0) (hf : s.fetch = some w)
    (hd : decodeWord w = .ok (.ldVxK x)) :
    ∃ t : State, runCycles n s = .next t ∧ t = { s with tick := t.tick, dt := t.dt, st := t.st } := by
  induction n generalizing s with
  | zero => exact ⟨s, rfl, rfl⟩
  | succ n ih =>
    have hr' : s.timerTick.running := (congrArg FaultRecord.valid s.timerTick_fault).trans hr
    obtain ⟨t, hrun, ht⟩ := ih hr' (s.timerTick_key.trans hk) (s.fetch_timerTick.trans hf)
    rw [s.timerTick_eq] at ht
    exact ⟨t, (runCycles_succ n (step_of_waiting hr hk hf hd)).trans hrun, ht⟩

/-- Settles O53: the word at PC is the one fetched, so the machine waits. -/
theorem waitRepeatsWhileNoKey : Obligations.WaitRepeatsWhileNoKey := fun _ _ hr hk hm hd n =>
  runCycles_of_waiting n hr hk (State.fetch_some.2 ⟨hm, rfl⟩) hd

/-! SKP and SKNP with a key's index in Vx (R110, R111). -/

theorem exec_skpVx (h : (s.getV x).toNat ≤ 15) :
    exec (.skpVx x) s = .next { s with pc := if s.key.getLsbD (s.getV x).toNat then s.pc + 4 else s.pc + 2 } := by
  rw [exec_of_not_raises (i := .skpVx x) (if_neg h.not_gt), effect, State.skipIf_advance]
  rfl

theorem exec_sknpVx (h : (s.getV x).toNat ≤ 15) :
    exec (.sknpVx x) s = .next { s with pc := if s.key.getLsbD (s.getV x).toNat then s.pc + 2 else s.pc + 4 } := by
  rw [exec_of_not_raises (i := .sknpVx x) (if_neg h.not_gt), effect, State.skipIf_advance]
  simp only [State.keyPressed, Bool.not_eq_true', ← Bool.not_eq_true, ite_not]

/-- Settles O51: an index of at most 15 names a latch, and one above 15 is the one condition that raises. -/
theorem skipsOnKey : Obligations.SkipsOnKey := fun _ _ =>
  ⟨fun h => ⟨exec_skpVx h, exec_sknpVx h⟩,
    fun h => ⟨exec_of_raises (c := .keypadIndex) (if_pos h), exec_of_raises (c := .keypadIndex) (if_pos h)⟩⟩

/-- Settles O54: none of the three can raise, and each effect is its one load and the advance. -/
theorem timerLoads : Obligations.TimerLoads := fun _ _ =>
  ⟨exec_setsRegister rfl rfl, exec_of_not_raises rfl, exec_of_not_raises rfl⟩

end Sys2Proof.Machine

/-! ### Faults, the tick and the over-long ROM (60_exceptions.md) -/

namespace Sys2Proof.Machine

variable {i : Instr} {s t : State} {w : Word} {c : FaultCause}

/-! The word of a fault (R122): no instruction that can raise stands in a family with ignored bits (R53). -/

theorem fieldFam_clearIgnoredBits (w : Word) : fieldFam (clearIgnoredBits w) = fieldFam w := by
  unfold clearIgnoredBits
  split
  · exact (fieldFam_and _ _).trans (and_ones4 _)
  · split
    · exact (fieldFam_and _ _).trans (and_ones4 _)
    · rfl

theorem fieldFam_encode_of_raises (h : raisesWhen i s = some c) : fieldFam (encode i) ∉ [0x5#4, 0x8#4, 0x9#4] := by
  cases i with
  | ret => decide
  | callAddr | drwVxVyN | ldBVx | ldMemVx | ldVxMem | skpVx | sknpVx => simp [encode]
  | _ => cases h

/-- An instruction that raises records the very word it was decoded from. -/
theorem encode_eq_of_raises (hd : decodeWord w = .ok i) (h : raisesWhen i s = some c) : encode i = w := by
  obtain ⟨henc, -⟩ := decodeWord_ok hd
  have hfam : fieldFam w ∉ [0x5#4, 0x8#4, 0x9#4] := by
    rw [← fieldFam_clearIgnoredBits, ← henc]
    exact fieldFam_encode_of_raises h
  exact henc.trans (clearIgnoredBits_of_family rfl hfam)

/-- A running machine that an instruction halts was halted by the instruction's raise. -/
theorem exec_raised (hr : s.running) (h : exec i s = .next t) (ht : t.fault.valid = true) :
    ∃ c, raisesWhen i s = some c ∧ t = { s with fault := ⟨true, c.code, encode i, s.pc⟩ } := by
  obtain hraise | ⟨_, rfl⟩ := exec_cases h
  · exact hraise
  · rw [effect_fault] at ht
    exact absurd ht (Bool.eq_false_iff.1 hr)

/-- A running machine that an unknown opcode halts was halted by the abort policy. -/
theorem unknownOpcode_raised (hr : s.running) (h : unknownOpcode s w = .next t) (ht : t.fault.valid = true) :
    t = { s with fault := ⟨true, FaultCause.unknownOpcode.code, w, s.pc⟩ } := by
  obtain ⟨_, rfl⟩ | ⟨_, rfl⟩ := unknownOpcode_next.1 h
  · rfl
  · exact absurd ht (Bool.eq_false_iff.1 hr)

/-- A cycle that raised ended without the tick, in the state its instruction or unknown opcode left. -/
theorem eq_of_endCycle_raised {u : State} (h : (u.fault.valid = true ∧ t = u) ∨ (u.fault.valid = false ∧ t = u.timerTick))
    (ht : t.fault.valid = true) : t = u := by
  obtain ⟨_, rfl⟩ | ⟨hu, rfl⟩ := h
  · rfl
  · rw [State.timerTick_fault] at ht
    exact absurd ht (Bool.eq_false_iff.1 hu)

/-- The three ways a cycle raises, FetchBound, an instruction's cause and UnknownOpcode, each record the fetched word, or 0 where
none was fetched, and PC. -/
theorem step_raised (hr : s.running) (h : step s = .next t) (ht : t.fault.valid = true) :
    ∃ c : FaultCause, t = { s with fault := ⟨true, c.code, s.fetch.getD 0, s.pc⟩ } := by
  obtain ⟨hv, _⟩ | ⟨_, hf, rfl⟩ | ⟨_, w, i, u, hf, hd, hu, hend⟩ | ⟨_, w, _, u, hf, _, hu, hend⟩ := step_cases h
  · exact absurd hv (Bool.eq_false_iff.1 hr)
  · exact ⟨.fetchBound, by rw [hf]; rfl⟩
  · cases eq_of_endCycle_raised hend ht
    obtain ⟨c, hc, rfl⟩ := exec_raised hr hu ht
    exact ⟨c, by rw [hf, encode_eq_of_raises hd hc]; rfl⟩
  · cases eq_of_endCycle_raised hend ht
    exact ⟨.unknownOpcode, by rw [hf]; exact unknownOpcode_raised hr hu ht⟩

/-- Settles O13: whatever raised, only FAULT was written. -/
theorem faultsArePrecise : Obligations.FaultsArePrecise := by
  intro s t hr h ht
  obtain ⟨c, rfl⟩ := step_raised hr h ht
  exact ⟨rfl, rfl, rfl⟩

/-- Settles O14: an instruction raises under its condition, and otherwise has its effect, which leaves FAULT alone. -/
theorem instructionsRaiseExactlyTheirCause : Obligations.InstructionsRaiseExactlyTheirCause := fun i s =>
  ⟨fun _ hc => exec_of_raises hc, fun hn => ⟨effect i s, exec_of_not_raises hn, effect_fault i s⟩⟩

/-! The ticks of a period (R131). -/

theorem countDown_eq_ofNat (b : Byte) : countDown b = BitVec.ofNat 8 (b.toNat - 1) := by
  rw [← countDown_toNat, BitVec.ofNat_toNat, BitVec.setWidth_eq]

/-- Before TICK runs out, ticks only count it down. -/
theorem State.timerTick_iterate_of_lt {k : Nat} (hk : k < s.tick) :
    State.timerTick^[k] s = { s with tick := s.tick - k } := by
  induction k with
  | zero => rfl
  | succ k ih =>
    have hlt : 1 < s.tick - k := by omega
    rw [Function.iterate_succ_apply', ih (by omega)]
    exact State.timerTick_of_lt hlt

/-- Settles O15: all ticks but the last only count TICK down to 1, at which the last one updates the timers. -/
theorem timersUpdateOncePerPeriod : Obligations.TimersUpdateOncePerPeriod := by
  refine fun s htick => ⟨fun k => State.timerTick_iterate_of_lt, ?_⟩
  obtain ⟨n, hn⟩ := Nat.exists_eq_add_of_le' htick
  have hlast : s.tick - n = 1 := by omega
  calc State.timerTick^[s.tick] s
      = (State.timerTick^[n] s).timerTick := by rw [hn, Function.iterate_succ_apply']
    _ = ({ s with tick := s.tick - n } : State).timerTick := by rw [State.timerTick_iterate_of_lt (by omega)]
    _ = _ := by rw [State.timerTick_of_one hlast, countDown_eq_ofNat, countDown_eq_ofNat]

/-- Settles O22: of LoadROM's two answers while a load is awaited, the over-long one keeps the machine. -/
theorem overlongRomReportedMachineUnchanged : Obligations.OverlongRomReportedMachineUnchanged := fun _ _ hp hlong =>
  ⟨_, loadRom_next.2 ⟨hp, .inl ⟨hlong, rfl⟩⟩, rfl⟩

end Sys2Proof.Machine

/-! ### The reset values and the loading of a ROM (70_reset_and_hazards.md) -/

namespace Sys2Proof.Machine

variable {p q : Session} {op : HostOp} {r : Reply} {image bytes : List Byte}

/-! LoadROM, and what may follow it (R153). -/

/-- A byte list that fits is copied to 0x200 upward, and memory alone changes (R153). -/
theorem loadRom_copies (hw : Memory.wf p.machine.cfg p.machine.mem) (hp : p.phase = .awaitingLoad)
    (hfit : 0x200 + bytes.length ≤ p.machine.cfg.memSize) :
    ∃ t, loadRom bytes p = .next (⟨t, .closed⟩, .loaded) ∧ t = { p.machine with mem := t.mem } ∧
      (∀ k < bytes.length, t.readByte (0x200 + k) = (bytes[k]?).getD 0) ∧
      ∀ a, (a < 0x200 ∨ 0x200 + bytes.length ≤ a) → t.readByte a = p.machine.readByte a := by
  refine ⟨_, loadRom_next.2 ⟨hp, .inr ⟨hfit, rfl⟩⟩, State.writeBytes_eq _ _ _, fun k hk => ?_,
    fun _ => p.machine.readByte_writeBytes_outside hw hfit⟩
  rw [List.getElem?_eq_getElem hk, Option.getD_some]
  exact p.machine.readByte_writeBytes_inside hw hfit (List.getElem?_eq_getElem hk)

/-- A load that answers RomTooLarge is a failed one. -/
theorem loadRom_romTooLarge_phase (h : loadRom image p = .next (q, .romTooLarge)) : q.phase = .failed := by
  obtain ⟨_, ⟨_, hq⟩ | ⟨_, hq⟩⟩ := loadRom_next.1 h
  · cases hq; rfl
  · cases hq

/-- After a failed load Cycle is refused (U5). -/
theorem cycleOp_refused (hp : p.phase = .failed) : cycleOp p = .refused .loadFailed := if_pos hp

/-- After a cycle, and after a load, copied or too large, no load is awaited (S10). -/
theorem hostStep_closes_load (hop : op = .cycle ∨ ∃ image, op = .loadRom image) (h : hostStep op p = .next (q, r)) :
    q.phase ≠ .awaitingLoad := by
  obtain rfl | ⟨image, rfl⟩ := hop
  · obtain ⟨_, _, _, hq⟩ := cycleOp_next.1 h
    cases hq; nofun
  · obtain ⟨_, ⟨_, hq⟩ | ⟨_, hq⟩⟩ := loadRom_next.1 h <;> cases hq <;> nofun

/-- Settles O21: short of Reset, operations keep the phase in which a load or a cycle leaves the session. -/
theorem loadRomCopiesImage : Obligations.LoadRomCopiesImage := by
  refine ⟨fun p bytes hinv hp hfit => ?_, fun op p q r ops u bytes hop h hops hu => ?_,
    fun p q image ops u h hops hu => ?_⟩
  · obtain ⟨⟨_, _, _, hw, _⟩, _⟩ := hinv
    exact loadRom_copies hw hp hfit
  · have hq := hostStep_closes_load hop h
    exact loadRom_refused (hostRun_phase hops hq hu ▸ hq)
  · have hq := loadRom_romTooLarge_phase h
    exact cycleOp_refused ((hostRun_phase hops (by rw [hq]; decide) hu).trans hq)

/-! The reset values (R150). -/

variable {c : Config} {a : Nat}

@[simp] theorem State.getV_resetWith (r : Reg) : (State.resetWith c).getV r = 0 := by
  simp [State.getV, State.resetWith, Vector.get_eq_getElem]

@[simp] theorem State.stackAt_resetWith (k : Nat) : (State.resetWith c).stackAt k = 0 := by
  rw [State.stackAt, State.resetWith, Vector.getElem?_replicate]
  split <;> rfl

/-- After reset no byte is listed, so each reads as the reset contents (R16). -/
@[simp] theorem State.readByte_resetWith : (State.resetWith c).readByte a = resetByte c a := rfl

theorem resetByte_font (k : Fin 80) : resetByte c (c.fontBase + k.val) = c.font.get k := by
  simp [resetByte, Vector.get_eq_getElem]

theorem resetByte_outside_font (ha : a < c.fontBase ∨ c.fontBase + 80 ≤ a) : resetByte c a = 0 := if_neg (by omega)

/-- Settles O20: the registers, the stack, the pixels and the bytes of memory one by one; the other fields are literals. -/
theorem resetValues : Obligations.ResetValues := by
  rintro c _ rfl
  exact ⟨rfl, State.getV_resetWith, rfl, rfl, fun k _ => State.stackAt_resetWith k, rfl, Framebuffer.pixel_blank,
    rfl, rfl, rfl, rfl, rfl, rfl, rfl, fun k => State.readByte_resetWith.trans (resetByte_font k),
    fun _ ha => State.readByte_resetWith.trans (resetByte_outside_font ha)⟩

end Sys2Proof.Machine
